-- ==== Sys2Proof/Word.lean ====
section
/-! DEFINITION. The plainest types of the chippy CHIP-8 CORE: bytes, 16-bit words, register numbers, key vectors, draws. -/

namespace Sys2Proof

/-- One byte of memory, or one 8-bit timer (20_memory R50, 10_state R31). -/
abbrev Byte := BitVec 8

/-- A 16-bit value: an opcode, `pc`, `I`, a stack entry (10_state R20, 30_encoding R70). -/
abbrev Word := BitVec 16

/-- The number of a general register, `V[0x0]` to `V[0xF]`: one 4-bit field (10_state R21, 60_exceptions R207). -/
abbrev RegIdx := Fin 16

/-- The key vector: `keys[k]` is true while key `k` is pressed (10_state R33). -/
abbrev Keys := Vector Bool 16

/-- The framebuffer: 32 rows of 64 pixels, `true` lit (10_state R32). -/
abbrev Framebuffer := Vector (Vector Bool 64) 32

/-- A random draw, a number of [0, 1000] (41_alu R132, port `rand_in` of 10_state R37). -/
abbrev Draw := Fin 1001

end Sys2Proof
end

