-- ==== Sys2Proof/Syntax.lean ====
section
/-! DEFINITION. The instructions: one constructor for each of the 35 rows of 30_encoding R74, with that row's operands. -/

namespace Sys2Proof

/-- The decoded instruction, "immutable tagged variant over 35 operation kinds with 0-3 typed operands". A register
operand is a 4-bit number by its type (60_exceptions R207). An immediate, an address and a height are the zero-extended
numbers of 30_encoding R72, whose bounds WellFormed checks. The fields an encoding ignores are no operands (R75, R76),
but for `reg2` of the two shifts, which is decoded and never read (R81). -/
inductive Instr where
  | clearScreen
  | ret
  | nop
  | jump (addr : Nat)
  | call (addr : Nat)
  | skipCondEq (reg : RegIdx) (imm : Nat)
  | skipCondNEq (reg : RegIdx) (imm : Nat)
  | skipCondRegEq (reg1 reg2 : RegIdx)
  | set (reg : RegIdx) (imm : Nat)
  | add (reg : RegIdx) (imm : Nat)
  | setR (reg1 reg2 : RegIdx)
  | binOr (reg1 reg2 : RegIdx)
  | binAnd (reg1 reg2 : RegIdx)
  | binXor (reg1 reg2 : RegIdx)
  | addR (reg1 reg2 : RegIdx)
  | sub12 (reg1 reg2 : RegIdx)
  | shiftL (reg1 reg2 : RegIdx)
  | sub21 (reg1 reg2 : RegIdx)
  | shiftR (reg1 reg2 : RegIdx)
  | skipCondRegNEq (reg1 reg2 : RegIdx)
  | setIndex (addr : Nat)
  | jumpOffset (addr : Nat)
  | random (reg : RegIdx) (mask : Nat)
  | display (regX regY : RegIdx) (height : Nat)
  | skipIfPressed (reg : RegIdx)
  | skipIfNotPressed (reg : RegIdx)
  | regFromDelayTimer (reg : RegIdx)
  | getPressedValue (reg : RegIdx)
  | delayTimerFromReg (reg : RegIdx)
  | soundTimerFromReg (reg : RegIdx)
  | addToIndex (reg : RegIdx)
  | fontCharacter (reg : RegIdx)
  | hexToDecimalToIndex (reg : RegIdx)
  | storeRegs (reg : RegIdx)
  | loadRegs (reg : RegIdx)
deriving DecidableEq, Repr

end Sys2Proof
end

