-- ==== Sys2Proof/WellFormed.lean ====
section
/-! DEFINITION. Which instructions can be written in 16 bits: each operand fits its field (30_encoding R71, R72). -/

namespace Sys2Proof

/-- Does `nnn` fit its 12 bits? -/
abbrev Instr.addrFits (addr : Nat) : Bool := decide (addr ≤ 0xFFF)

/-- Does `kk` fit its 8 bits? -/
abbrev Instr.immFits (imm : Nat) : Bool := decide (imm ≤ 0xFF)

/-- Does `n` fit its 4 bits? -/
abbrev Instr.heightFits (height : Nat) : Bool := decide (height ≤ 0xF)

/-- The instructions the encoding can hold. Register operands fit by their type. -/
def Instr.wellFormed : Instr → Bool
  | .jump a | .call a | .setIndex a | .jumpOffset a => Instr.addrFits a
  | .skipCondEq _ k | .skipCondNEq _ k | .set _ k | .add _ k | .random _ k => Instr.immFits k
  | .display _ _ n => Instr.heightFits n
  | .clearScreen | .ret | .nop
  | .skipCondRegEq _ _ | .skipCondRegNEq _ _
  | .setR _ _ | .binOr _ _ | .binAnd _ _ | .binXor _ _ | .addR _ _ | .sub12 _ _ | .sub21 _ _
  | .shiftL _ _ | .shiftR _ _
  | .skipIfPressed _ | .skipIfNotPressed _ | .regFromDelayTimer _ | .getPressedValue _
  | .delayTimerFromReg _ | .soundTimerFromReg _ | .addToIndex _ | .fontCharacter _
  | .hexToDecimalToIndex _ | .storeRegs _ | .loadRegs _ => true

end Sys2Proof
end

