-- ==== Sys2Proof/Decode.lean ====
section
/-! DEFINITION. The Opcode Decoder (30_encoding R70 to R83), the encoder written from the same table, the table's rows as
data, and the byte order of an instruction word. -/

namespace Sys2Proof

/-- The big-endian opcode of two bytes: the first byte is bits 15:8 (20_memory R54). -/
def wordOfBytes (first second : Byte) : Word := first ++ second

/-- Bits 15:8 of an opcode, the byte at the lower address (20_memory R54). -/
def highByte (op : Word) : Byte := op.extractLsb' 8 8

/-- Bits 7:0 of an opcode, the byte at the higher address (20_memory R54). -/
def lowByte (op : Word) : Byte := op.extractLsb' 0 8

/-- The `width` bits of `op` from bit `lo` up, as an unsigned number (00_scope section 5). -/
def bitField (op : Word) (lo width : Nat) : Nat := (op.extractLsb' lo width).toNat

/-- The 4-bit register field of `op` from bit `lo` up (30_encoding R71, R72). -/
def regField (op : Word) (lo : Nat) : RegIdx := (op.extractLsb' lo 4).toFin

/-- Group 0x8, dispatched on the trailing nibble `n` (30_encoding R77). -/
def decodeGroup8 (n : Nat) (x y : RegIdx) : Option Instr :=
  if n = 0x0 then some (.setR x y)
  else if n = 0x1 then some (.binOr x y)
  else if n = 0x2 then some (.binAnd x y)
  else if n = 0x3 then some (.binXor x y)
  else if n = 0x4 then some (.addR x y)
  else if n = 0x5 then some (.sub12 x y)
  else if n = 0x6 then some (.shiftL x y)
  else if n = 0x7 then some (.sub21 x y)
  else if n = 0xE then some (.shiftR x y)
  else none

/-- Group 0xE, dispatched on the low byte (30_encoding R79). -/
def decodeGroupE (kk : Nat) (x : RegIdx) : Option Instr :=
  if kk = 0x9E then some (.skipIfPressed x)
  else if kk = 0xA1 then some (.skipIfNotPressed x)
  else none

/-- Group 0xF, dispatched on the low byte (30_encoding R80). -/
def decodeGroupF (kk : Nat) (x : RegIdx) : Option Instr :=
  if kk = 0x07 then some (.regFromDelayTimer x)
  else if kk = 0x0A then some (.getPressedValue x)
  else if kk = 0x15 then some (.delayTimerFromReg x)
  else if kk = 0x18 then some (.soundTimerFromReg x)
  else if kk = 0x1E then some (.addToIndex x)
  else if kk = 0x29 then some (.fontCharacter x)
  else if kk = 0x33 then some (.hexToDecimalToIndex x)
  else if kk = 0x55 then some (.storeRegs x)
  else if kk = 0x65 then some (.loadRegs x)
  else none

/-- The decode table given the fields of the word (30_encoding R74): `n1` and then the group's own sub-opcode. -/
def decodeFields (n1 : Nat) (x y : RegIdx) (n kk nnn : Nat) : Option Instr :=
  if n1 = 0x0 then
    if nnn = 0x0E0 then some .clearScreen else if nnn = 0x0EE then some .ret else some .nop
  else if n1 = 0x1 then some (.jump nnn)
  else if n1 = 0x2 then some (.call nnn)
  else if n1 = 0x3 then some (.skipCondEq x kk)
  else if n1 = 0x4 then some (.skipCondNEq x kk)
  else if n1 = 0x5 then some (.skipCondRegEq x y)
  else if n1 = 0x6 then some (.set x kk)
  else if n1 = 0x7 then some (.add x kk)
  else if n1 = 0x8 then decodeGroup8 n x y
  else if n1 = 0x9 then some (.skipCondRegNEq x y)
  else if n1 = 0xA then some (.setIndex nnn)
  else if n1 = 0xB then some (.jumpOffset nnn)
  else if n1 = 0xC then some (.random x kk)
  else if n1 = 0xD then some (.display x y n)
  else if n1 = 0xE then decodeGroupE kk x
  else decodeGroupF kk x

/-- The Opcode Decoder: a pure, total function from a 16-bit word to an instruction or a decode error, `none`
(30_encoding R73). -/
def decodeWord (op : Word) : Option Instr :=
  decodeFields (bitField op 12 4) (regField op 8) (regField op 4)
    (bitField op 0 4) (bitField op 0 8) (bitField op 0 12)

/-- Why bytes give no instruction. -/
inductive DecodeError where
  /-- Fewer than the two bytes an instruction takes (30_encoding R70). -/
  | tooShort
  /-- The word matches no row of 30_encoding R74. -/
  | illegal (op : Word)
deriving DecidableEq, Repr

/-- Decoding from bytes: the instruction and the bytes after it (30_encoding R70: always two). -/
def decode : List Byte → Except DecodeError (Instr × List Byte)
  | first :: second :: rest =>
    match decodeWord (wordOfBytes first second) with
    | some i => .ok (i, rest)
    | none => .error (.illegal (wordOfBytes first second))
  | _ => .error .tooShort

/-- One row of the opcode table: a word is the row's when its bits under `mask` are `value`. -/
structure OpcodeRow where
  mnemonic : String
  value : Word
  mask : Word
deriving DecidableEq, Repr

/-- The row of the opcode table that stands for an instruction's constructor. -/
def Instr.row : Instr → OpcodeRow
  | .clearScreen => ⟨"ClearScreen", 0x00E0, 0xFFFF⟩
  | .ret => ⟨"Return", 0x00EE, 0xFFFF⟩
  | .nop => ⟨"Nop", 0x0000, 0xF000⟩
  | .jump _ => ⟨"Jump", 0x1000, 0xF000⟩
  | .call _ => ⟨"Call", 0x2000, 0xF000⟩
  | .skipCondEq _ _ => ⟨"SkipCondEq", 0x3000, 0xF000⟩
  | .skipCondNEq _ _ => ⟨"SkipCondNEq", 0x4000, 0xF000⟩
  | .skipCondRegEq _ _ => ⟨"SkipCondRegEq", 0x5000, 0xF000⟩
  | .set _ _ => ⟨"Set", 0x6000, 0xF000⟩
  | .add _ _ => ⟨"Add", 0x7000, 0xF000⟩
  | .setR _ _ => ⟨"SetR", 0x8000, 0xF00F⟩
  | .binOr _ _ => ⟨"BinOr", 0x8001, 0xF00F⟩
  | .binAnd _ _ => ⟨"BinAnd", 0x8002, 0xF00F⟩
  | .binXor _ _ => ⟨"BinXor", 0x8003, 0xF00F⟩
  | .addR _ _ => ⟨"AddR", 0x8004, 0xF00F⟩
  | .sub12 _ _ => ⟨"Sub12", 0x8005, 0xF00F⟩
  | .shiftL _ _ => ⟨"ShiftL", 0x8006, 0xF00F⟩
  | .sub21 _ _ => ⟨"Sub21", 0x8007, 0xF00F⟩
  | .shiftR _ _ => ⟨"ShiftR", 0x800E, 0xF00F⟩
  | .skipCondRegNEq _ _ => ⟨"SkipCondRegNEq", 0x9000, 0xF000⟩
  | .setIndex _ => ⟨"SetIndex", 0xA000, 0xF000⟩
  | .jumpOffset _ => ⟨"JumpOffset", 0xB000, 0xF000⟩
  | .random _ _ => ⟨"Random", 0xC000, 0xF000⟩
  | .display _ _ _ => ⟨"Display", 0xD000, 0xF000⟩
  | .skipIfPressed _ => ⟨"SkipIfPressed", 0xE09E, 0xF0FF⟩
  | .skipIfNotPressed _ => ⟨"SkipIfNotPressed", 0xE0A1, 0xF0FF⟩
  | .regFromDelayTimer _ => ⟨"RegFromDelayTimer", 0xF007, 0xF0FF⟩
  | .getPressedValue _ => ⟨"GetPressedValue", 0xF00A, 0xF0FF⟩
  | .delayTimerFromReg _ => ⟨"DelayTimerFromReg", 0xF015, 0xF0FF⟩
  | .soundTimerFromReg _ => ⟨"SoundTimerFromReg", 0xF018, 0xF0FF⟩
  | .addToIndex _ => ⟨"AddToIndex", 0xF01E, 0xF0FF⟩
  | .fontCharacter _ => ⟨"FontCharacter", 0xF029, 0xF0FF⟩
  | .hexToDecimalToIndex _ => ⟨"HexToDecimalToIndex", 0xF033, 0xF0FF⟩
  | .storeRegs _ => ⟨"StoreRegs", 0xF055, 0xF0FF⟩
  | .loadRegs _ => ⟨"LoadRegs", 0xF065, 0xF0FF⟩

/-- The four field layouts of 30_encoding R71 as sums of place values: `nnn`, `xkk`, `xyn` under a leading nibble. -/
def wordNNN (n1 nnn : Nat) : Word := BitVec.ofNat 16 (n1 * 4096 + nnn)
def wordXKK (n1 : Nat) (x : RegIdx) (kk : Nat) : Word := BitVec.ofNat 16 (n1 * 4096 + x.val * 256 + kk)
def wordXYN (n1 : Nat) (x y : RegIdx) (n : Nat) : Word :=
  BitVec.ofNat 16 (n1 * 4096 + x.val * 256 + y.val * 16 + n)

/-- The encoder: the word of a well-formed instruction by the encodings of 30_encoding R74 and R84. A field that is no
operand is written 0 (R84). -/
def encode : Instr → Word
  | .clearScreen => 0x00E0
  | .ret => 0x00EE
  | .nop => 0x0000
  | .jump a => wordNNN 0x1 a
  | .call a => wordNNN 0x2 a
  | .skipCondEq x k => wordXKK 0x3 x k
  | .skipCondNEq x k => wordXKK 0x4 x k
  | .skipCondRegEq x y => wordXYN 0x5 x y 0x0
  | .set x k => wordXKK 0x6 x k
  | .add x k => wordXKK 0x7 x k
  | .setR x y => wordXYN 0x8 x y 0x0
  | .binOr x y => wordXYN 0x8 x y 0x1
  | .binAnd x y => wordXYN 0x8 x y 0x2
  | .binXor x y => wordXYN 0x8 x y 0x3
  | .addR x y => wordXYN 0x8 x y 0x4
  | .sub12 x y => wordXYN 0x8 x y 0x5
  | .shiftL x y => wordXYN 0x8 x y 0x6
  | .sub21 x y => wordXYN 0x8 x y 0x7
  | .shiftR x y => wordXYN 0x8 x y 0xE
  | .skipCondRegNEq x y => wordXYN 0x9 x y 0x0
  | .setIndex a => wordNNN 0xA a
  | .jumpOffset a => wordNNN 0xB a
  | .random x k => wordXKK 0xC x k
  | .display x y n => wordXYN 0xD x y n
  | .skipIfPressed x => wordXKK 0xE x 0x9E
  | .skipIfNotPressed x => wordXKK 0xE x 0xA1
  | .regFromDelayTimer x => wordXKK 0xF x 0x07
  | .getPressedValue x => wordXKK 0xF x 0x0A
  | .delayTimerFromReg x => wordXKK 0xF x 0x15
  | .soundTimerFromReg x => wordXKK 0xF x 0x18
  | .addToIndex x => wordXKK 0xF x 0x1E
  | .fontCharacter x => wordXKK 0xF x 0x29
  | .hexToDecimalToIndex x => wordXKK 0xF x 0x33
  | .storeRegs x => wordXKK 0xF x 0x55
  | .loadRegs x => wordXKK 0xF x 0x65

/-- The two bytes of an instruction as they lie in memory (20_memory R54). -/
def encodeBytes (i : Instr) : List Byte := [highByte (encode i), lowByte (encode i)]

/-- The opcode that a row's bits stand for: `nbits` of them, those above zero. -/
def tableWord (nbits w : Nat) : Word := BitVec.ofNat 16 (w % 2 ^ nbits)

/-- What the decoder reads from the word `w` of the opcode table, laid out big-endian as the memory holds it. -/
def decodeTableWord (nbits w : Nat) : Option Instr :=
  match decode [highByte (tableWord nbits w), lowByte (tableWord nbits w)] with
  | .ok (i, _) => some i
  | .error _ => none

end Sys2Proof
end

