-- ==== Sys2Proof/Config.lean ====
section
/-! DEFINITION. What is fixed for the machine (00_scope R6) and the free values: what the host hands over with each cycle.
The values of the open parameters (font, register window, framebuffer at reset) stand in Machine/Params.lean. -/

namespace Sys2Proof

/-- `MEM_SIZE`: bytes of memory (00_scope R6). -/
abbrev Config.memSize : Nat := 4096

/-- `STACK_DEPTH`: return addresses the call stack holds (00_scope R6). -/
abbrev Config.stackDepth : Nat := 16

/-- `PROGRAM_START`: where the ROM goes and where `pc` starts (00_scope R6). -/
abbrev Config.programStart : Nat := 0x200

/-- `FONT_BASE`: the first byte of the Font Table, 80 bytes long (00_scope R6). -/
abbrev Config.fontBase : Nat := 0x050

/-- `ROM_MAX`: the longest ROM, 4096 - 512 (00_scope R6). -/
abbrev Config.romMax : Nat := 3584

/-- What the host may do to a timer between two cycles: tick both, or set one (60_exceptions R212; ports `tick`,
`dt_wr`, `st_wr` of 10_state R37). -/
inductive HostMove where
  | tick
  | setDelay (value : Byte)
  | setSound (value : Byte)
deriving DecidableEq, Repr, Inhabited

/-- All that the host hands over with one cycle: its timer moves since the cycle before, oldest first, then the key
vector `keys_in` and the draw `rand_in` (10_state R37, 60_exceptions R213, 70_reset R235). -/
structure CycleInput where
  moves : List HostMove
  keys  : Keys
  draw  : Draw
deriving DecidableEq, Repr, Inhabited

/-- FREE VALUE (log 6): what the host hands over with the n-th cycle of a run whose script says nothing of it. It has
no body, so a statement about a step holds whatever keys, draw, ticks and timer sets the host chooses
(93_implementation_defined: "any value"; 60_exceptions R213). -/
opaque Config.hostInput : Nat → CycleInput

end Sys2Proof
end

