-- ==== Sys2Proof/Machine/Params.lean ====
section
/-! DEFINITION. The values the model gives the parameters the spec leaves open (00_scope R7): the default font, the
default register window, the framebuffer at reset, the largest BCD value. -/

namespace Sys2Proof.Machine

/-- `FONT`, the default Font Table of 20_memory R53, glyph 0 first, top row first. PRESUMED (log 2): the bytes are
general knowledge and not in the source, so a claim about glyph pixels rests on them. -/
def Params.font : List Byte :=
  [0xF0, 0x90, 0x90, 0x90, 0xF0] ++ [0x20, 0x60, 0x20, 0x20, 0x70] ++
  [0xF0, 0x10, 0xF0, 0x80, 0xF0] ++ [0xF0, 0x10, 0xF0, 0x10, 0xF0] ++
  [0x90, 0x90, 0xF0, 0x10, 0x10] ++ [0xF0, 0x80, 0xF0, 0x10, 0xF0] ++
  [0xF0, 0x80, 0xF0, 0x90, 0xF0] ++ [0xF0, 0x10, 0x20, 0x40, 0x40] ++
  [0xF0, 0x90, 0xF0, 0x90, 0xF0] ++ [0xF0, 0x90, 0xF0, 0x10, 0xF0] ++
  [0xF0, 0x90, 0xF0, 0x90, 0x90] ++ [0xE0, 0x90, 0xE0, 0x90, 0xE0] ++
  [0xF0, 0x80, 0x80, 0x80, 0xF0] ++ [0xE0, 0x90, 0x90, 0x90, 0xE0] ++
  [0xF0, 0x80, 0xF0, 0x80, 0xF0] ++ [0xF0, 0x80, 0xF0, 0x80, 0x80]

/-- What a byte of memory holds when the Machine State is created: the Font Table at 0x050 to 0x09F, 0 elsewhere
(20_memory R51, R53; 10_state R38). -/
def Params.resetByte (addr : Nat) : Byte :=
  if Config.fontBase ≤ addr then Params.font.getD (addr - Config.fontBase) 0 else 0

/-- The default `REG_MIN` of an executable model (00_scope R7, decision D1). DESIGN CHOICE (log 1). -/
def Params.regMin : Int := -32768

/-- The default `REG_MAX` of an executable model (00_scope R7, decision D1). DESIGN CHOICE (log 1). -/
def Params.regMax : Int := 32767

/-- `FB_INIT`: all false (00_scope R7, decision D22; log 3). -/
def Params.fbInit : Framebuffer := Vector.replicate 32 (Vector.replicate 64 false)

/-- `BCD_MAX`: the largest value HexToDecimalToIndex accepts (00_scope R7, decision D13). -/
abbrev Params.bcdMax : Int := 255

end Sys2Proof.Machine
end

