-- ==== Sys2Proof/Machine/State.lean ====
section
/-! DEFINITION. The Machine State (10_state R20) as plain data, the fault causes, the reasons a step can stop, and the
state after reset. -/

namespace Sys2Proof.Machine

/-- Memory: the bytes that differ from what they hold at creation, by rising address (`Memory.wf` in Ops.lean). -/
abbrev Memory := List Host.Cell

/-- The fault causes of 60_exceptions R201, each with the diagnostic info of its row (log 8). -/
inductive Cause where
  | fetchBounds (pc : Word)
  | decode (opcode : Word)
  | stackOverflow
  | stackUnderflow
  | regRange (reg : RegIdx) (value : Int)
  | keyRange (value : Int)
  | fontRange (value : Int)
  | bcdRange (value : Int)
  | memBounds (addr : Nat)
  | memValue (addr : Nat) (value : Int)
  | timerValue (value : Int)
  | indexRange (value : Int)
  | pcRange (target : Int)
  /-- Kept so that "out-of-range register index" has a place. No instruction can raise it, because a register number is
  4 bits by its type (60_exceptions R207; log 14). -/
  | regIndex (index : Nat)
deriving DecidableEq, Repr

/-- The fault record `{cause, opcode, pc}` of 60_exceptions R202; `opcode` is absent for `FETCH_BOUNDS`. -/
structure FaultRecord where
  cause  : Cause
  opcode : Option Word
  pc     : Word
deriving DecidableEq, Repr

/-- The state of the block. The first ten fields are the spec's (10_state R20); `regMin` and `regMax` are the spec's
parameters, which no step changes (00_scope R7, log 1); the last four are the model's own (logs 6, 7 and 12). -/
structure State where
  /-- memory (20_memory R50) -/
  mem    : Memory
  /-- the general registers `V[0x0]` to `V[0xF]` (10_state R21) -/
  v      : Vector Int 16
  /-- the index register `I` (10_state R27, R28) -/
  index  : Word
  /-- the program counter (10_state R25, R26) -/
  pc     : Word
  /-- the call stack, its top entry last (10_state R29, R30) -/
  stack  : List Word
  /-- the delay timer `DT` (10_state R31) -/
  dt     : Byte
  /-- the sound timer `ST` (10_state R31) -/
  st     : Byte
  /-- the framebuffer, `fb[y][x]` (10_state R32) -/
  fb     : Framebuffer
  /-- the key vector (10_state R33) -/
  keys   : Keys
  /-- `none` while the machine runs, else the record of the fault that stopped it (10_state R34) -/
  halted : Option FaultRecord
  /-- `REG_MIN` of the register window (00_scope R7) -/
  regMin : Int
  /-- `REG_MAX` of the register window (00_scope R7) -/
  regMax : Int
  /-- the MODEL's own: the word the current cycle fetched, which a fault records (60_exceptions R202) -/
  opcode : Word
  /-- the MODEL's own: the draw handed over with the current cycle (port `rand_in`, 10_state R37) -/
  draw   : Draw
  /-- the MODEL's own: what the host hands over with the next cycles; past its end the hand-offs are free values -/
  script : List CycleInput
  /-- the MODEL's own: how many cycles have begun -/
  cycles : Nat
deriving DecidableEq, Repr

/-- Why a step has no next state. -/
inductive Fault where
  /-- Raised by `step` alone, for a block that a fault has halted: "A halted block has no step" (70_reset R236). Safe:
  the machine does not go on either. The fault itself was a next state, with this record in `halted` (log 5). -/
  | halted (record : FaultRecord)
deriving DecidableEq, Repr

/-- Why an instruction or a host request is turned away. -/
inductive Refusal where
  /-- Raised by an arm of `exec` for an instruction without a meaning. Safe. No arm raises it in this model. -/
  | notModelled (mnemonic : String)
  /-- Raised by `loadRom` alone, for a ROM longer than 3584 bytes, after which no cycle may run (70_reset R232). Safe:
  the spec refuses it too. No step raises it. -/
  | romTooLong (length : Nat)
deriving DecidableEq, Repr

/-- The state right after reset: the table of 10_state R38, with the parameters at their defaults (logs 1, 2, 3, 4) and
the model's own fields at zero (logs 6 and 7). -/
def State.reset : State where
  mem    := []
  v      := Vector.replicate 16 0
  index  := 0
  pc     := BitVec.ofNat 16 Config.programStart
  stack  := []
  dt     := 0
  st     := 0
  fb     := Params.fbInit
  keys   := Vector.replicate 16 false
  halted := none
  regMin := Params.regMin
  regMax := Params.regMax
  opcode := 0
  draw   := 0
  script := []
  cycles := 0

end Sys2Proof.Machine
end

