-- ==== Sys2Proof/Machine/Ops.lean ====
section
/-! DEFINITION. The named operations over memory, registers, stack, framebuffer and timers, the fetch, and the ONE
operation that takes a fault. An operation that can raise answers `.error` with the cause and no state, so no write made
before a raise survives (00_scope R10). -/

namespace Sys2Proof.Machine

/-! ### Memory (20_memory R50, R57, R58) -/

/-- What an address reads as when the memory does not list it: its byte at creation (10_state R38). -/
def Memory.unlisted (addr : Nat) : Byte := Params.resetByte addr

/-- The byte at an address. -/
def Memory.read : Memory → Nat → Byte
  | [], addr => Memory.unlisted addr
  | cell :: rest, addr => if cell.1 = addr then cell.2 else Memory.read rest addr

/-- Drop the entry of an address. -/
def Memory.drop : Memory → Nat → Memory
  | [], _ => []
  | cell :: rest, addr => if cell.1 = addr then rest else cell :: Memory.drop rest addr

/-- List a byte at its place in the order. -/
def Memory.put : Memory → Nat → Byte → Memory
  | [], addr, b => [(addr, b)]
  | cell :: rest, addr, b =>
    if addr < cell.1 then (addr, b) :: cell :: rest
    else if cell.1 = addr then (addr, b) :: rest
    else cell :: Memory.put rest addr b

/-- Write one byte, keeping the canonical form: a byte equal to what the unlisted address reads as is not listed. -/
def Memory.write (m : Memory) (addr : Nat) (b : Byte) : Memory :=
  if b = Memory.unlisted addr then Memory.drop m addr else Memory.put m addr b

/-- Every listed address is at least `lo`, inside memory, strictly rising, and no entry is what an unlisted address
reads as. -/
def Memory.wfFrom (lo : Nat) : Memory → Bool
  | [] => true
  | cell :: rest =>
    decide (lo ≤ cell.1) && decide (cell.1 < Config.memSize) && decide (cell.2 ≠ Memory.unlisted cell.1)
      && Memory.wfFrom (cell.1 + 1) rest

/-- The canonical form of memory. -/
def Memory.wf (m : Memory) : Bool := Memory.wfFrom 0 m

/-- `MemRead(addr, 1)` of 20_memory R57. -/
def State.memRead (s : State) (addr : Nat) : Except Cause Byte :=
  if addr > 4095 then .error (.memBounds addr) else .ok (s.mem.read addr)

/-- `MemWrite(addr, 1, v)` of 20_memory R58: the address is checked before the value. -/
def State.memWrite (s : State) (addr : Nat) (value : Int) : Except Cause State :=
  if addr > 4095 then .error (.memBounds addr)
  else if value < 0 ∨ value > 255 then .error (.memValue addr value)
  else .ok { s with mem := s.mem.write addr (BitVec.ofInt 8 value) }

/-! ### Registers (10_state R22, R26, R28) -/

/-- Read `V[i]`. -/
def State.reg (s : State) (i : RegIdx) : Int := s.v[i.val]

/-- Is an integer inside the register window `[REG_MIN, REG_MAX]`? -/
abbrev State.inWindow (s : State) (value : Int) : Prop := s.regMin ≤ value ∧ value ≤ s.regMax

/-- `V[i] <- value`, the range-checked register write `SetReg` of 10_state R22. -/
def State.setReg (s : State) (i : RegIdx) (value : Int) : Except Cause State :=
  if value < s.regMin ∨ value > s.regMax then .error (.regRange i value)
  else .ok { s with v := s.v.set i.val value }

/-- `pc <- target`: a value outside 0 to 0xFFFF faults with `PC_RANGE`, and `pc` never wraps (10_state R26; log 11). -/
def State.setPc (s : State) (target : Int) : Except Cause State :=
  if target < 0 ∨ target > 0xFFFF then .error (.pcRange target)
  else .ok { s with pc := BitVec.ofInt 16 target }

/-- `I <- value`: a value outside 0 to 0xFFFF faults with `INDEX_RANGE` (10_state R28; log 11). -/
def State.setIndex (s : State) (value : Int) : Except Cause State :=
  if value < 0 ∨ value > 0xFFFF then .error (.indexRange value)
  else .ok { s with index := BitVec.ofInt 16 value }

/-- The extra advance of a skip instruction: exactly 2 bytes, when its condition holds (40_control R109). -/
def State.skipIf (s : State) (condition : Bool) : Except Cause State :=
  if condition then s.setPc (s.pc.toNat + 2) else .ok s

/-! ### The call stack (10_state R30) -/

/-- `push(value)`. -/
def State.push (s : State) (value : Word) : Except Cause State :=
  if s.stack.length ≥ Config.stackDepth then .error .stackOverflow
  else .ok { s with stack := s.stack ++ [value] }

/-- `pop()`: the top entry and the state without it. -/
def State.pop (s : State) : Except Cause (Word × State) :=
  match s.stack.getLast? with
  | none => .error .stackUnderflow
  | some value => .ok (value, { s with stack := s.stack.dropLast })

/-! ### The framebuffer (10_state R32) -/

/-- The pixel at column `x`, row `y`; no pixel outside the grid is lit. -/
def Framebuffer.pixel (fb : Framebuffer) (x y : Nat) : Bool :=
  if h : y < 32 ∧ x < 64 then (fb[y]'h.1)[x]'h.2 else false

/-- Set the pixel at column `x`, row `y`; outside the grid there is nothing to set. -/
def Framebuffer.setPixel (fb : Framebuffer) (x y : Nat) (lit : Bool) : Framebuffer :=
  if h : y < 32 ∧ x < 64 then fb.set y ((fb[y]'h.1).set x lit h.2) h.1 else fb

/-- The pixel of the block's framebuffer at column `x`, row `y`: `fb[y][x]`. -/
def State.pixel (s : State) (x y : Nat) : Bool := Framebuffer.pixel s.fb x y

/-! ### Timers (60_exceptions R212) -/

/-- One timer one tick later: a nonzero timer counts down by 1, a zero timer stays. PRESUMED (log 9). -/
def tickTimer (t : Byte) : Byte := if t = 0 then 0 else t - 1

/-- One host move on the pair of timers (`DT`, `ST`). -/
def HostMove.onTimers : HostMove → Byte × Byte → Byte × Byte
  | .tick, t => (tickTimer t.1, tickTimer t.2)
  | .setDelay b, t => (b, t.2)
  | .setSound b, t => (t.1, b)

/-- The host's moves between two cycles, oldest first (60_exceptions R209, R213). -/
def State.hostMoves (s : State) (moves : List HostMove) : State :=
  { s with
    dt := (moves.foldl (fun t m => HostMove.onTimers m t) (s.dt, s.st)).1
    st := (moves.foldl (fun t m => HostMove.onTimers m t) (s.dt, s.st)).2 }

/-! ### Taking a fault (60_exceptions R202, R203) -/

/-- Fault entry, the one operation every fault goes through: `halted` is set to the record of the cause, the opcode (if
it was fetched) and `pc` as it stands; nothing else changes and no further cycle runs. -/
def State.raise (s : State) (cause : Cause) (opcode : Option Word) : State :=
  { s with halted := some { cause := cause, opcode := opcode, pc := s.pc } }

/-- The end of an instruction that started in `s`: its writes, or, on a raise, none of them and the fault entry from
`s`, the state after fetch (00_scope R10). -/
def State.commit (s : State) : Except Cause State → State
  | .ok t => t
  | .error cause => s.raise cause (some s.opcode)

/-- The outcome of an instruction that started in `s`: always a next state, a fault entry among them. -/
def State.complete (s : State) (result : Except Cause State) : Host.Outcome State Fault Refusal :=
  .next (s.commit result)

/-! ### Fetch (20_memory R54, R55) -/

/-- The word at an address: the byte there is bits 15:8, the byte after it bits 7:0. -/
def Memory.word (m : Memory) (addr : Nat) : Word := wordOfBytes (m.read addr) (m.read (addr + 1))

/-- Store a word at an address in that same byte order. -/
def Memory.putWord (m : Memory) (addr : Nat) (op : Word) : Memory :=
  (m.write addr (highByte op)).write (addr + 1) (lowByte op)

/-- `Fetch()`: the opcode at `pc` and the state with `pc` advanced by 2, or `FETCH_BOUNDS`. -/
def State.fetch (s : State) : Except Cause (Word × State) :=
  if s.pc.toNat + 1 > 4095 then .error (.fetchBounds s.pc)
  else .ok (s.mem.word s.pc.toNat, { s with pc := s.pc + 2 })

end Sys2Proof.Machine
end

