-- ==== Sys2Proof/Machine/Operands.lean ====
section
/-! DEFINITION. The operand forms: bitwise operations on the two's-complement form of unbounded integers (00_scope R9),
immediates, the index-plus-offset address (42_index_memory R140), bytes as register values, runs of registers. -/

namespace Sys2Proof.Machine

/-- Bit `k` of the two's-complement form of an integer: `(v div 2^k) mod 2` (00_scope section 5). -/
def bitOf (k : Nat) (v : Int) : Int := v / 2 ^ k % 2

/-- `a AND b` on two's-complement integers. -/
def intAnd : Int → Int → Int
  | .ofNat m, .ofNat n => .ofNat (m &&& n)
  | .ofNat m, .negSucc n => .ofNat (m ^^^ (m &&& n))
  | .negSucc m, .ofNat n => .ofNat (n ^^^ (n &&& m))
  | .negSucc m, .negSucc n => .negSucc (m ||| n)

/-- `a OR b` on two's-complement integers. -/
def intOr : Int → Int → Int
  | .ofNat m, .ofNat n => .ofNat (m ||| n)
  | .ofNat m, .negSucc n => .negSucc (n ^^^ (n &&& m))
  | .negSucc m, .ofNat n => .negSucc (m ^^^ (m &&& n))
  | .negSucc m, .negSucc n => .negSucc (m &&& n)

/-- `a XOR b` on two's-complement integers. -/
def intXor : Int → Int → Int
  | .ofNat m, .ofNat n => .ofNat (m ^^^ n)
  | .ofNat m, .negSucc n => .negSucc (m ^^^ n)
  | .negSucc m, .ofNat n => .negSucc (m ^^^ n)
  | .negSucc m, .negSucc n => .ofNat (m ^^^ n)

/-- An immediate as a register value: zero-extended (30_encoding R72). -/
def immValue (imm : Nat) : Int := imm

/-- A loaded byte as a register value: zero-extended (42_index_memory R140). -/
def byteValue (b : Byte) : Int := b.toNat

/-- The effective address of byte `k` of an access: `I + k` (42_index_memory R140). -/
def State.indexed (s : State) (k : Nat) : Nat := s.index.toNat + k

/-- The registers 0 to `x`, inclusive, in order (42_index_memory R145, R146). -/
def regsUpTo (x : RegIdx) : List RegIdx := (List.finRange 16).take (x.val + 1)

/-- The lowest pressed key (44_keys_timers R173: "low-to-high index"). -/
def firstPressed (keys : Keys) : Option (Fin 16) := (List.finRange 16).find? (fun k => keys[k.val])

end Sys2Proof.Machine
end

