-- ==== Sys2Proof/Machine/Flags.lean ====
section
/-! DEFINITION. The flag register VF and every value an instruction writes to it as a flag (10_state R23). -/

namespace Sys2Proof.Machine

/-- VF, the register that doubles as the flags register. -/
abbrev vf : RegIdx := 15

/-- The bit a left shift moves out: bit 15 of the old value (41_alu R130). -/
def shiftLeftFlag (old : Int) : Int := bitOf 15 old

/-- The bit a right shift moves out: bit 0 of the old value (41_alu R131). -/
def shiftRightFlag (old : Int) : Int := bitOf 0 old

/-- The collision flag of Display: 1 if some pixel went from set to unset, else 0 (43_display R162). -/
def collisionFlag (collision : Bool) : Int := if collision then 1 else 0

end Sys2Proof.Machine
end

