-- ==== Sys2Proof/Machine/Alu.lean ====
section
/-! DEFINITION. The register and ALU instructions (41_alu R120 to R133): exact integers, every write range-checked, no
flag but the shifts'. -/

namespace Sys2Proof.Machine

/-- Set (R121). -/
def execSet (reg : RegIdx) (imm : Nat) (s : State) : Host.Outcome State Fault Refusal :=
  s.complete (s.setReg reg (immValue imm))

/-- Add (R122): the exact integer sum. -/
def execAdd (reg : RegIdx) (imm : Nat) (s : State) : Host.Outcome State Fault Refusal :=
  s.complete (s.setReg reg (s.reg reg + immValue imm))

/-- SetR (R123). -/
def execSetR (reg1 reg2 : RegIdx) (s : State) : Host.Outcome State Fault Refusal :=
  s.complete (s.setReg reg1 (s.reg reg2))

/-- BinOr (R124). -/
def execBinOr (reg1 reg2 : RegIdx) (s : State) : Host.Outcome State Fault Refusal :=
  s.complete (s.setReg reg1 (intOr (s.reg reg1) (s.reg reg2)))

/-- BinAnd (R125). -/
def execBinAnd (reg1 reg2 : RegIdx) (s : State) : Host.Outcome State Fault Refusal :=
  s.complete (s.setReg reg1 (intAnd (s.reg reg1) (s.reg reg2)))

/-- BinXor (R126). -/
def execBinXor (reg1 reg2 : RegIdx) (s : State) : Host.Outcome State Fault Refusal :=
  s.complete (s.setReg reg1 (intXor (s.reg reg1) (s.reg reg2)))

/-- AddR (R127): the exact integer sum. -/
def execAddR (reg1 reg2 : RegIdx) (s : State) : Host.Outcome State Fault Refusal :=
  s.complete (s.setReg reg1 (s.reg reg1 + s.reg reg2))

/-- Sub12 (R128): the exact integer difference. -/
def execSub12 (reg1 reg2 : RegIdx) (s : State) : Host.Outcome State Fault Refusal :=
  s.complete (s.setReg reg1 (s.reg reg1 - s.reg reg2))

/-- Sub21 (R129): the reference's literal arithmetic, `V[y] - V[y]`. -/
def execSub21 (reg1 reg2 : RegIdx) (s : State) : Host.Outcome State Fault Refusal :=
  s.complete (s.setReg reg1 (s.reg reg2 - s.reg reg2))

/-- ShiftL (R130): twice the old value, then VF is the old value's bit 15; `reg2` is decoded and not read. -/
def execShiftL (reg1 _reg2 : RegIdx) (s : State) : Host.Outcome State Fault Refusal :=
  s.complete (do
    let t ← s.setReg reg1 (s.reg reg1 * 2)
    t.setReg vf (shiftLeftFlag (s.reg reg1)))

/-- ShiftR (R131): half the old value, rounded down, then VF is the old value's bit 0; `reg2` is decoded and not read. -/
def execShiftR (reg1 _reg2 : RegIdx) (s : State) : Host.Outcome State Fault Refusal :=
  s.complete (do
    let t ← s.setReg reg1 (s.reg reg1 / 2)
    t.setReg vf (shiftRightFlag (s.reg reg1)))

/-- Random (R132): the cycle's draw AND the mask. -/
def execRandom (reg : RegIdx) (mask : Nat) (s : State) : Host.Outcome State Fault Refusal :=
  s.complete (s.setReg reg (intAnd (s.draw.val : Int) (immValue mask)))

end Sys2Proof.Machine
end

