-- ==== Sys2Proof/Machine/Control.lean ====
section
/-! DEFINITION. The control-flow instructions (40_control R100 to R110). Each meaning starts from the state after fetch,
so `pc` is the instruction's address plus 2. -/

namespace Sys2Proof.Machine

/-- Nop (R100): no state changes. -/
def execNop (s : State) : Host.Outcome State Fault Refusal := s.complete (.ok s)

/-- Return (R101). -/
def execReturn (s : State) : Host.Outcome State Fault Refusal :=
  s.complete (do
    let (target, t) ← s.pop
    t.setPc target.toNat)

/-- Jump (R102). -/
def execJump (addr : Nat) (s : State) : Host.Outcome State Fault Refusal :=
  s.complete (s.setPc addr)

/-- Call (R103): pushes the post-fetch `pc`. -/
def execCall (addr : Nat) (s : State) : Host.Outcome State Fault Refusal :=
  s.complete (do
    let t ← s.push s.pc
    t.setPc addr)

/-- JumpOffset (R104): the register is always `V[0]`, and the sum is not masked. -/
def execJumpOffset (addr : Nat) (s : State) : Host.Outcome State Fault Refusal :=
  s.complete (s.setPc (addr + s.reg 0))

/-- SkipCondEq (R105): compares full integer values. -/
def execSkipCondEq (reg : RegIdx) (imm : Nat) (s : State) : Host.Outcome State Fault Refusal :=
  s.complete (s.skipIf (s.reg reg == immValue imm))

/-- SkipCondNEq (R106). -/
def execSkipCondNEq (reg : RegIdx) (imm : Nat) (s : State) : Host.Outcome State Fault Refusal :=
  s.complete (s.skipIf (s.reg reg != immValue imm))

/-- SkipCondRegEq (R107). -/
def execSkipCondRegEq (reg1 reg2 : RegIdx) (s : State) : Host.Outcome State Fault Refusal :=
  s.complete (s.skipIf (s.reg reg1 == s.reg reg2))

/-- SkipCondRegNEq (R108). -/
def execSkipCondRegNEq (reg1 reg2 : RegIdx) (s : State) : Host.Outcome State Fault Refusal :=
  s.complete (s.skipIf (s.reg reg1 != s.reg reg2))

end Sys2Proof.Machine
end

