-- ==== Sys2Proof/Machine/Display.lean ====
section
/-! DEFINITION. The display instructions, the framebuffer XOR engine (43_display R160 to R164). -/

namespace Sys2Proof.Machine

/-- ClearScreen (R161): every pixel false; VF is not written. -/
def execClearScreen (s : State) : Host.Outcome State Fault Refusal :=
  s.complete (.ok { s with fb := Vector.replicate 32 (Vector.replicate 64 false) })

/-- The start column of a sprite: `V[x] AND 63` (R160). -/
def startColumn (value : Int) : Nat := (intAnd value 63).toNat

/-- The start row of a sprite: `V[y] AND 31` (R160). -/
def startRow (value : Int) : Nat := (intAnd value 31).toNat

/-- The sprite's rows: `count` bytes from `addr` on, each bounds-checked, clipped rows among them (R162). -/
def State.readRows (s : State) (addr : Nat) : Nat → Except Cause (List Byte)
  | 0 => .ok []
  | count + 1 => do
    let b ← s.memRead addr
    let bs ← s.readRows (addr + 1) count
    .ok (b :: bs)

/-- The pixel of a sprite row at column offset `c`, most significant bit first (R160). -/
def spriteBit (row : Byte) (c : Nat) : Bool := row.getLsbD (7 - c)

/-- A framebuffer being drawn on, and whether some pixel has gone from set to unset. -/
abbrev Canvas := Framebuffer × Bool

/-- One pixel of a sprite: clipped outside the grid, toggled where the sprite's bit is 1 (R162). -/
def drawPixel (px py : Nat) (bit : Bool) (canvas : Canvas) : Canvas :=
  if px > 63 ∨ py > 31 then canvas
  else if bit then
    (Framebuffer.setPixel canvas.1 px py (!Framebuffer.pixel canvas.1 px py), canvas.2 || Framebuffer.pixel canvas.1 px py)
  else canvas

/-- One row of a sprite, its eight columns from left to right. -/
def drawRow (x0 py : Nat) (row : Byte) (canvas : Canvas) : Canvas :=
  (List.range 8).foldl (fun acc c => drawPixel (x0 + c) py (spriteBit row c) acc) canvas

/-- The rows of a sprite from `py` downwards. -/
def drawRows (x0 : Nat) : Nat → List Byte → Canvas → Canvas
  | _, [], canvas => canvas
  | py, row :: rows, canvas => drawRows x0 (py + 1) rows (drawRow x0 py row canvas)

/-- Display (R162): coordinates read first, then every row, then the XOR, then VF. -/
def execDisplay (regX regY : RegIdx) (height : Nat) (s : State) : Host.Outcome State Fault Refusal :=
  s.complete (do
    let rows ← s.readRows (s.indexed 0) height
    let canvas := drawRows (startColumn (s.reg regX)) (startRow (s.reg regY)) rows (s.fb, false)
    { s with fb := canvas.1 }.setReg vf (collisionFlag canvas.2))

end Sys2Proof.Machine
end

