-- ==== Sys2Proof/Machine/IndexMemory.lean ====
section
/-! DEFINITION. The index register and memory instructions (42_index_memory R140 to R146). -/

namespace Sys2Proof.Machine

/-- SetIndex (R141). -/
def execSetIndex (addr : Nat) (s : State) : Host.Outcome State Fault Refusal :=
  s.complete (s.setIndex addr)

/-- AddToIndex (R142): the exact integer sum; VF is not written. -/
def execAddToIndex (reg : RegIdx) (s : State) : Host.Outcome State Fault Refusal :=
  s.complete (s.setIndex (s.index.toNat + s.reg reg))

/-- FontCharacter (R143): the address of a glyph's first byte; the value is not masked. -/
def execFontCharacter (reg : RegIdx) (s : State) : Host.Outcome State Fault Refusal :=
  s.complete (
    if s.reg reg < 0 ∨ s.reg reg > 15 then .error (.fontRange (s.reg reg))
    else s.setIndex (s.reg reg * 5 + 0x50))

/-- HexToDecimalToIndex (R144): hundreds, tens and units at `I`, `I + 1`, `I + 2`. -/
def execHexToDecimalToIndex (reg : RegIdx) (s : State) : Host.Outcome State Fault Refusal :=
  s.complete (
    if s.reg reg < 0 ∨ s.reg reg > Params.bcdMax then .error (.bcdRange (s.reg reg))
    else do
      let t ← s.memWrite (s.indexed 0) (s.reg reg / 100)
      let u ← t.memWrite (s.indexed 1) (s.reg reg / 10 % 10)
      u.memWrite (s.indexed 2) (s.reg reg % 10))

/-- The loop of StoreRegs: the listed registers in order, each at `I` plus its number. -/
def State.storeEach (s : State) : List RegIdx → Except Cause State
  | [] => .ok s
  | k :: ks => do
    let t ← s.memWrite (s.indexed k.val) (s.reg k)
    t.storeEach ks

/-- StoreRegs (R145): `V[0]` to `V[x]`, inclusive. -/
def execStoreRegs (reg : RegIdx) (s : State) : Host.Outcome State Fault Refusal :=
  s.complete (s.storeEach (regsUpTo reg))

/-- The loop of LoadRegs: the listed registers in order, each from `I` plus its number. -/
def State.loadEach (s : State) : List RegIdx → Except Cause State
  | [] => .ok s
  | k :: ks => do
    let b ← s.memRead (s.indexed k.val)
    let t ← s.setReg k (byteValue b)
    t.loadEach ks

/-- LoadRegs (R146): `V[0]` to `V[x]`, inclusive. -/
def execLoadRegs (reg : RegIdx) (s : State) : Host.Outcome State Fault Refusal :=
  s.complete (s.loadEach (regsUpTo reg))

end Sys2Proof.Machine
end

