-- ==== Sys2Proof/Machine/KeysTimers.lean ====
section
/-! DEFINITION. The key and timer instructions (44_keys_timers R170 to R176). -/

namespace Sys2Proof.Machine

/-- The state of the key a register names: `KEY_RANGE` when the value is outside 0 to 15 (R171). -/
def State.keyState (s : State) (value : Int) : Except Cause Bool :=
  if h : value < 0 ∨ value > 15 then .error (.keyRange value)
  else .ok (s.keys[value.toNat]'(by omega))

/-- The byte a timer is set to: `TIMER_VALUE` when the value is outside 0 to 255 (R175). -/
def timerByte (value : Int) : Except Cause Byte :=
  if value < 0 ∨ value > 255 then .error (.timerValue value) else .ok (BitVec.ofInt 8 value)

/-- SkipIfPressed (R171). -/
def execSkipIfPressed (reg : RegIdx) (s : State) : Host.Outcome State Fault Refusal :=
  s.complete (do
    let pressed ← s.keyState (s.reg reg)
    s.skipIf pressed)

/-- SkipIfNotPressed (R172). -/
def execSkipIfNotPressed (reg : RegIdx) (s : State) : Host.Outcome State Fault Refusal :=
  s.complete (do
    let pressed ← s.keyState (s.reg reg)
    s.skipIf (!pressed))

/-- GetPressedValue (R173): the lowest pressed key, or `pc` back by 2 when none is pressed. -/
def execGetPressedValue (reg : RegIdx) (s : State) : Host.Outcome State Fault Refusal :=
  s.complete (
    match firstPressed s.keys with
    | some k => s.setReg reg (k.val : Int)
    | none => s.setPc ((s.pc.toNat : Int) - 2))

/-- RegFromDelayTimer (R174). -/
def execRegFromDelayTimer (reg : RegIdx) (s : State) : Host.Outcome State Fault Refusal :=
  s.complete (s.setReg reg (byteValue s.dt))

/-- DelayTimerFromReg (R175). -/
def execDelayTimerFromReg (reg : RegIdx) (s : State) : Host.Outcome State Fault Refusal :=
  s.complete (do
    let b ← timerByte (s.reg reg)
    .ok { s with dt := b })

/-- SoundTimerFromReg (R176). -/
def execSoundTimerFromReg (reg : RegIdx) (s : State) : Host.Outcome State Fault Refusal :=
  s.complete (do
    let b ← timerByte (s.reg reg)
    .ok { s with st := b })

end Sys2Proof.Machine
end

