-- ==== Sys2Proof/Machine/Dispatch.lean ====
section
/-! DEFINITION. The Instruction Executor's dispatch: one arm per instruction of 30_encoding R74. -/

namespace Sys2Proof.Machine

def exec (i : Instr) (s : State) : Host.Outcome State Fault Refusal :=
  match i with
  | .clearScreen => Sys2Proof.Machine.execClearScreen s
  | .ret => Sys2Proof.Machine.execReturn s
  | .nop => Sys2Proof.Machine.execNop s
  | .jump addr => Sys2Proof.Machine.execJump addr s
  | .call addr => Sys2Proof.Machine.execCall addr s
  | .skipCondEq reg imm => Sys2Proof.Machine.execSkipCondEq reg imm s
  | .skipCondNEq reg imm => Sys2Proof.Machine.execSkipCondNEq reg imm s
  | .skipCondRegEq reg1 reg2 => Sys2Proof.Machine.execSkipCondRegEq reg1 reg2 s
  | .set reg imm => Sys2Proof.Machine.execSet reg imm s
  | .add reg imm => Sys2Proof.Machine.execAdd reg imm s
  | .setR reg1 reg2 => Sys2Proof.Machine.execSetR reg1 reg2 s
  | .binOr reg1 reg2 => Sys2Proof.Machine.execBinOr reg1 reg2 s
  | .binAnd reg1 reg2 => Sys2Proof.Machine.execBinAnd reg1 reg2 s
  | .binXor reg1 reg2 => Sys2Proof.Machine.execBinXor reg1 reg2 s
  | .addR reg1 reg2 => Sys2Proof.Machine.execAddR reg1 reg2 s
  | .sub12 reg1 reg2 => Sys2Proof.Machine.execSub12 reg1 reg2 s
  | .shiftL reg1 reg2 => Sys2Proof.Machine.execShiftL reg1 reg2 s
  | .sub21 reg1 reg2 => Sys2Proof.Machine.execSub21 reg1 reg2 s
  | .shiftR reg1 reg2 => Sys2Proof.Machine.execShiftR reg1 reg2 s
  | .skipCondRegNEq reg1 reg2 => Sys2Proof.Machine.execSkipCondRegNEq reg1 reg2 s
  | .setIndex addr => Sys2Proof.Machine.execSetIndex addr s
  | .jumpOffset addr => Sys2Proof.Machine.execJumpOffset addr s
  | .random reg mask => Sys2Proof.Machine.execRandom reg mask s
  | .display regX regY height => Sys2Proof.Machine.execDisplay regX regY height s
  | .skipIfPressed reg => Sys2Proof.Machine.execSkipIfPressed reg s
  | .skipIfNotPressed reg => Sys2Proof.Machine.execSkipIfNotPressed reg s
  | .regFromDelayTimer reg => Sys2Proof.Machine.execRegFromDelayTimer reg s
  | .getPressedValue reg => Sys2Proof.Machine.execGetPressedValue reg s
  | .delayTimerFromReg reg => Sys2Proof.Machine.execDelayTimerFromReg reg s
  | .soundTimerFromReg reg => Sys2Proof.Machine.execSoundTimerFromReg reg s
  | .addToIndex reg => Sys2Proof.Machine.execAddToIndex reg s
  | .fontCharacter reg => Sys2Proof.Machine.execFontCharacter reg s
  | .hexToDecimalToIndex reg => Sys2Proof.Machine.execHexToDecimalToIndex reg s
  | .storeRegs reg => Sys2Proof.Machine.execStoreRegs reg s
  | .loadRegs reg => Sys2Proof.Machine.execLoadRegs reg s

end Sys2Proof.Machine
end

