-- ==== Sys2Proof/Machine/Cycle.lean ====
section
/-! DEFINITION. The Cycle Driver's cycle (70_reset R235) and what the host hands over before it (60_exceptions R213). -/

namespace Sys2Proof.Machine

/-- What the host hands over with the next cycle: the head of the script, or, past its end, a free value (log 6). -/
def State.nextInput (s : State) : CycleInput :=
  match s.script with
  | [] => Config.hostInput s.cycles
  | input :: _ => input

/-- The start of a cycle: the key snapshot is overwritten wholesale and the draw is at hand (70_reset R235). The model's
own fields step on: the script loses its head and the cycle is counted. -/
def State.beginCycle (s : State) (keysIn : Keys) (r : Draw) : State :=
  { s with keys := keysIn, draw := r, script := s.script.tail, cycles := s.cycles + 1 }

/-- The fetched word kept at hand for a fault record (60_exceptions R202). -/
def State.holdOpcode (s : State) (op : Word) : State := { s with opcode := op }

/-- Execute the fetched word, or raise `DECODE` after the fetch (30_encoding R73, R83). -/
def execWord (op : Word) (s : State) : Host.Outcome State Fault Refusal :=
  match decodeWord op with
  | some i => exec i s
  | none => .next (s.raise (.decode op) (some op))

/-- `Cycle(k_in, r)` of 70_reset R235, for a block that is not halted. -/
def cycle (keysIn : Keys) (r : Draw) (s : State) : Host.Outcome State Fault Refusal :=
  match (s.beginCycle keysIn r).fetch with
  | .error cause => .next ((s.beginCycle keysIn r).raise cause none)
  | .ok (op, t) => execWord op (t.holdOpcode op)

/-- The host's moves since the last cycle, then the cycle (70_reset R233, R235). -/
def hostCycle (input : CycleInput) (s : State) : Host.Outcome State Fault Refusal :=
  cycle input.keys input.draw (s.hostMoves input.moves)

end Sys2Proof.Machine
end

