-- ==== Sys2Proof/Machine/Step.lean ====
section
/-! DEFINITION. One step of the block, and placing the next instruction to run. -/

namespace Sys2Proof.Machine

/-- One step: what the host does up to and with the next cycle, and that cycle. "A halted block has no step" (70_reset
R236). -/
def step (s : State) : Host.Outcome State Fault Refusal :=
  match s.halted with
  | some record => .fault (.halted record)
  | none => hostCycle s.nextInput s

/-- The state with the opcode-table word `w` stored big-endian at `pc`, where the next step fetches. It stands for the
host's ROM load (70_reset R232, log 12). -/
def State.withFetchWord (s : State) (nbits w : Nat) : State :=
  { s with mem := s.mem.putWord s.pc.toNat (tableWord nbits w) }

end Sys2Proof.Machine
end

