-- ==== Sys2Proof/Machine/Ports.lean ====
section
/-! DEFINITION. The block's interface to the host beyond the cycle itself: creation, the ROM load, the step input and the
output ports (10_state R37, 60_exceptions R215, 70_reset R230, R232). -/

namespace Sys2Proof.Machine

/-! ### Creation -/

/-- Bytes written one after another from an address on. -/
def Memory.writeFrom (m : Memory) (addr : Nat) : List Byte → Memory
  | [] => m
  | b :: bs => Memory.writeFrom (m.write addr b) (addr + 1) bs

/-- A fresh Machine State for any choice of the open parameters of 00_scope R7: `FONT`, `REG_MIN`, `REG_MAX`, `FB_INIT`.
It is what the input `rst` gives, from any state. -/
def State.createWith (font : Vector Byte 80) (regMin regMax : Int) (fbInit : Framebuffer) : State :=
  { State.reset with
    mem := Memory.writeFrom [] Config.fontBase font.toList
    regMin := regMin, regMax := regMax, fb := fbInit }

/-! ### ROM load -/

/-- One byte through the port `load_en`, `load_addr`, `load_data`: without effect below 0x200, beyond memory, or once the
first cycle has begun (10_state R37). -/
def State.loadByte (s : State) (addr : Nat) (b : Byte) : State :=
  if s.cycles = 0 ∧ Config.programStart ≤ addr ∧ addr < Config.memSize
  then { s with mem := s.mem.write addr b } else s

/-- Bytes loaded one after another from an address on. -/
def State.loadFrom (s : State) (addr : Nat) : List Byte → State
  | [] => s
  | b :: bs => (s.loadByte addr b).loadFrom (addr + 1) bs

/-- `LoadROM(bytes)`: byte `j` goes to `0x200 + j`. A ROM of more than 3584 bytes is refused, with nothing loaded and no
cycle to run (70_reset R232). -/
def State.loadRom (s : State) (bytes : List Byte) : Host.Outcome State Fault Refusal :=
  if bytes.length > Config.romMax then .refused (.romTooLong bytes.length)
  else .next (s.loadFrom Config.programStart bytes)

/-! ### The step input -/

/-- The state after the host pulses `step`: a halted block stays as the fault left it (70_reset R236). -/
def State.pulse (s : State) : State :=
  match step s with
  | .next t => t
  | .fault _ => s
  | .refused _ => s

/-! ### Outputs -/

/-- The 4-bit code of a cause (60_exceptions R201). -/
def Cause.code : Cause → BitVec 4
  | .fetchBounds _ => 1
  | .decode _ => 2
  | .stackOverflow => 3
  | .stackUnderflow => 4
  | .regRange _ _ => 5
  | .keyRange _ => 6
  | .fontRange _ => 7
  | .bcdRange _ => 8
  | .memBounds _ => 9
  | .memValue _ _ => 10
  | .timerValue _ => 11
  | .indexRange _ => 12
  | .pcRange _ => 13
  | .regIndex _ => 14

/-- The output ports of 10_state R37. -/
structure Outputs where
  dtOut : Byte
  stOut : Byte
  fbOut : Framebuffer
  haltedOut : Bool
  faultCause : BitVec 4
  faultOpcode : Word
  faultOpcodeValid : Bool
  faultPc : Word
deriving DecidableEq, Repr

/-- What the ports show in a state. With no fault the cause is 0 ("Code 0 means no fault", 60_exceptions R201), and the
ports that then mean nothing show 0 (log 16). -/
def State.outputs (s : State) : Outputs :=
  match s.halted with
  | none =>
    { dtOut := s.dt, stOut := s.st, fbOut := s.fb, haltedOut := false, faultCause := 0, faultOpcode := 0,
      faultOpcodeValid := false, faultPc := 0 }
  | some r =>
    { dtOut := s.dt, stOut := s.st, fbOut := s.fb, haltedOut := true, faultCause := r.cause.code,
      faultOpcode := r.opcode.getD 0, faultOpcodeValid := r.opcode.isSome, faultPc := r.pc }

/-- Bit `64*y + x` of the port `fb_out`. -/
def Outputs.fbBit (o : Outputs) (k : Nat) : Bool := Framebuffer.pixel o.fbOut (k % 64) (k / 64)

end Sys2Proof.Machine
end

