-- ==== Sys2Proof/Safety.lean ====
section
/-! DEFINITION. What counts as a safe state and a finished run, and the invariant every step keeps. -/

namespace Sys2Proof.Machine

/-- A block that no fault has stopped (10_state R34). -/
abbrev State.Running (s : State) : Prop := s.halted = none

/-- The window is legal: `REG_MIN < 0 < REG_MAX` (00_scope R7). -/
abbrev State.WindowLegal (s : State) : Prop := s.regMin < 0 ∧ 0 < s.regMax

/-- The window holds every byte, so that a byte written to a register is never out of range. -/
abbrev State.WindowHoldsBytes (s : State) : Prop := s.regMin < 0 ∧ 255 ≤ s.regMax

/-- Every register holds an integer of the window (10_state R21). -/
abbrev State.RegsInWindow (s : State) : Prop := ∀ k : RegIdx, s.inWindow (s.reg k)

/-- The call stack holds at most 16 entries (10_state R29). -/
abbrev State.StackFits (s : State) : Prop := s.stack.length ≤ Config.stackDepth

/-- The cause is one some cycle can raise: never `REG_INDEX` (60_exceptions R207). -/
def Cause.reachable : Cause → Bool
  | .regIndex _ => false
  | .fetchBounds _ | .decode _ | .stackOverflow | .stackUnderflow | .regRange _ _ | .keyRange _ | .fontRange _
  | .bcdRange _ | .memBounds _ | .memValue _ _ | .timerValue _ | .indexRange _ | .pcRange _ => true

/-- A fault record agrees with the state it stopped: it holds that state's `pc`, a cause a cycle can raise, and an
opcode unless the fetch failed (60_exceptions R202, R207). -/
abbrev State.RecordAgrees (s : State) : Prop :=
  ∀ r, s.halted = some r →
    r.pc = s.pc ∧ r.cause.reachable = true ∧ (r.opcode.isSome = true ↔ r.cause.code ≠ 1)

/-- The invariant of the block: canonical memory, a legal window that every register is in, a stack that fits, and a
fault record that agrees with the state. -/
structure State.Inv (s : State) : Prop where
  mem : s.mem.wf = true
  window : s.WindowLegal
  regs : s.RegsInWindow
  stack : s.StackFits
  record : s.RecordAgrees

/-- A finished run at `a`: not halted, with `pc = a` and `Jump a` stored there (70_reset R238). -/
structure State.FinishedAt (s : State) (a : Nat) : Prop where
  running : s.Running
  bound : a + 1 ≤ 4095
  pc : s.pc.toNat = a
  word : s.mem.word a = BitVec.ofNat 16 (0x1000 + a)

end Sys2Proof.Machine
end

