-- ==== Sys2Proof/Certificates/Slice0/Obligations.lean ====
section
/-! DEFINITION. The statements about the model that the provers settle. Each says which rule of spec/ it formalises.
Unless it says otherwise, a statement about an instruction is about `exec` from the state after fetch, in which `pc` is
the instruction's address plus 2 (the head of 40_control). `exec i s = .next { s with … }` says the result and the whole
frame at once: every field not named is unchanged. -/

namespace Sys2Proof.Claims

open Sys2Proof.Machine

/-- From `s`, the instruction completes in `t`. -/
abbrev Completes (i : Instr) (s t : State) : Prop := exec i s = .next t

/-- From `s`, the instruction raises `cause`: the next state is `s` with the fault record and no other change
(60_exceptions R202, R203). -/
abbrev Faults (i : Instr) (s : State) (cause : Cause) : Prop :=
  exec i s = .next { s with halted := some { cause := cause, opcode := some s.opcode, pc := s.pc } }

/-- The instruction writes `value` to `V[x]` when the window holds it, and raises `REG_RANGE` when not (10_state R22). -/
abbrev WritesReg (i : Instr) (s : State) (x : RegIdx) (value : Int) : Prop :=
  (s.regMin ≤ value ∧ value ≤ s.regMax → Completes i s { s with v := s.v.set x.val value })
  ∧ (value < s.regMin ∨ s.regMax < value → Faults i s (.regRange x value))

/-- The instruction skips when `condition` holds, and changes nothing when not. -/
abbrev SkipsWhen (i : Instr) (s : State) (condition : Prop) : Prop :=
  (condition → Completes i s { s with pc := s.pc + 2 }) ∧ (¬ condition → Completes i s s)

/-- A skip has room: `pc` can advance by 2. It holds after every fetch (statement FetchReadsBigEndian). -/
abbrev RoomToSkip (s : State) : Prop := s.pc.toNat + 2 ≤ 0xFFFF

/-- The words `n1 nnn` decode to `f nnn`. -/
abbrev DecodesNNN (n1 : Nat) (f : Nat → Instr) : Prop := ∀ nnn ≤ 0xFFF, decodeWord (wordNNN n1 nnn) = some (f nnn)

/-- The words `n1 x kk` decode to `f x kk`. -/
abbrev DecodesXKK (n1 : Nat) (f : RegIdx → Nat → Instr) : Prop :=
  ∀ x, ∀ kk ≤ 0xFF, decodeWord (wordXKK n1 x kk) = some (f x kk)

/-- The words `n1 x kk` with this `kk` decode to `f x`. -/
abbrev DecodesX (n1 kk : Nat) (f : RegIdx → Instr) : Prop := ∀ x, decodeWord (wordXKK n1 x kk) = some (f x)

/-- The words `n1 x y n` with this `n` decode to `f x y`. -/
abbrev DecodesXY (n1 n : Nat) (f : RegIdx → RegIdx → Instr) : Prop :=
  ∀ x y, decodeWord (wordXYN n1 x y n) = some (f x y)

/-- How many words of the group `n1` the decoder accepts. -/
def legalWords (n1 : Nat) : Nat := (List.range 4096).countP fun nnn => (decodeWord (wordNNN n1 nnn)).isSome

/-- How many words of the group `n1` the decoder refuses. -/
def illegalWords (n1 : Nat) : Nat := (List.range 4096).countP fun nnn => (decodeWord (wordNNN n1 nnn)).isNone

/-- The registers an instruction may write (10_state R24, its last column). -/
def writes : Instr → List RegIdx
  | .set x _ | .add x _ | .random x _ => [x]
  | .setR x _ | .binOr x _ | .binAnd x _ | .binXor x _ | .addR x _ | .sub12 x _ | .sub21 x _ => [x]
  | .shiftL x _ | .shiftR x _ => [x, 15]
  | .display _ _ _ => [15]
  | .regFromDelayTimer x | .getPressedValue x => [x]
  | .loadRegs x => (List.finRange 16).filter (· ≤ x)
  | .clearScreen | .ret | .nop | .jump _ | .call _ | .setIndex _ | .jumpOffset _
  | .skipCondEq _ _ | .skipCondNEq _ _ | .skipCondRegEq _ _ | .skipCondRegNEq _ _
  | .skipIfPressed _ | .skipIfNotPressed _ | .delayTimerFromReg _ | .soundTimerFromReg _
  | .addToIndex _ | .fontCharacter _ | .hexToDecimalToIndex _ | .storeRegs _ => []

/-- The instructions that change `pc` after the fetch (10_state R25). -/
def movesPc : Instr → Bool
  | .skipCondEq _ _ | .skipCondNEq _ _ | .skipCondRegEq _ _ | .skipCondRegNEq _ _
  | .skipIfPressed _ | .skipIfNotPressed _ | .jump _ | .call _ | .ret | .jumpOffset _ | .getPressedValue _ => true
  | .clearScreen | .nop | .set _ _ | .add _ _ | .setR _ _ | .binOr _ _ | .binAnd _ _ | .binXor _ _ | .addR _ _
  | .sub12 _ _ | .shiftL _ _ | .sub21 _ _ | .shiftR _ _ | .setIndex _ | .random _ _ | .display _ _ _
  | .regFromDelayTimer _ | .delayTimerFromReg _ | .soundTimerFromReg _ | .addToIndex _ | .fontCharacter _
  | .hexToDecimalToIndex _ | .storeRegs _ | .loadRegs _ => false

/-- The three writers of `I` (10_state R27). -/
def writesIndex : Instr → Bool
  | .setIndex _ | .addToIndex _ | .fontCharacter _ => true
  | .clearScreen | .ret | .nop | .jump _ | .call _ | .skipCondEq _ _ | .skipCondNEq _ _ | .skipCondRegEq _ _
  | .set _ _ | .add _ _ | .setR _ _ | .binOr _ _ | .binAnd _ _ | .binXor _ _ | .addR _ _
  | .sub12 _ _ | .shiftL _ _ | .sub21 _ _ | .shiftR _ _ | .skipCondRegNEq _ _ | .jumpOffset _ | .random _ _
  | .display _ _ _ | .skipIfPressed _ | .skipIfNotPressed _
  | .regFromDelayTimer _ | .getPressedValue _ | .delayTimerFromReg _ | .soundTimerFromReg _
  | .hexToDecimalToIndex _ | .storeRegs _ | .loadRegs _ => false

/-- The two instructions that store to memory (20_memory R59). -/
def storesMem : Instr → Bool
  | .hexToDecimalToIndex _ | .storeRegs _ => true
  | .clearScreen | .ret | .nop | .jump _ | .call _ | .skipCondEq _ _ | .skipCondNEq _ _ | .skipCondRegEq _ _
  | .set _ _ | .add _ _ | .setR _ _ | .binOr _ _ | .binAnd _ _ | .binXor _ _ | .addR _ _
  | .sub12 _ _ | .shiftL _ _ | .sub21 _ _ | .shiftR _ _ | .skipCondRegNEq _ _ | .setIndex _ | .jumpOffset _
  | .random _ _ | .display _ _ _ | .skipIfPressed _ | .skipIfNotPressed _
  | .regFromDelayTimer _ | .getPressedValue _ | .delayTimerFromReg _ | .soundTimerFromReg _
  | .addToIndex _ | .fontCharacter _ | .loadRegs _ => false

/-- The pixel a sprite of `n` rows at `I` sets in row `py`, column `px`, when drawn from column `x0`, row `y0`: bit
`7 - (px - x0)` of the byte `I + (py - y0)` (43_display R160). -/
def spriteAt (s : State) (x0 y0 n px py : Nat) : Bool :=
  decide (x0 ≤ px ∧ px < x0 + 8 ∧ y0 ≤ py ∧ py < y0 + n)
    && ((s.mem.read (s.index.toNat + (py - y0))).toNat / 2 ^ (7 - (px - x0)) % 2 == 1)

/-- Byte `k` of a StoreRegs can be stored: its address is in memory and its value is a byte. -/
abbrev Storable (s : State) (k : RegIdx) : Prop :=
  s.index.toNat + k.val ≤ 4095 ∧ 0 ≤ s.reg k ∧ s.reg k ≤ 255

/-- The 14 causes and their codes (60_exceptions R201). -/
abbrev CauseCodes : Prop :=
  (∀ pc, (Cause.fetchBounds pc).code = 1) ∧ (∀ op, (Cause.decode op).code = 2)
  ∧ Cause.stackOverflow.code = 3 ∧ Cause.stackUnderflow.code = 4
  ∧ (∀ x v, (Cause.regRange x v).code = 5) ∧ (∀ v, (Cause.keyRange v).code = 6)
  ∧ (∀ v, (Cause.fontRange v).code = 7) ∧ (∀ v, (Cause.bcdRange v).code = 8)
  ∧ (∀ a, (Cause.memBounds a).code = 9) ∧ (∀ a v, (Cause.memValue a v).code = 10)
  ∧ (∀ v, (Cause.timerValue v).code = 11) ∧ (∀ v, (Cause.indexRange v).code = 12)
  ∧ (∀ v, (Cause.pcRange v).code = 13) ∧ ∀ k, (Cause.regIndex k).code = 14

/-- The state in which a step of `s` executes what it fetched: the host's hand-offs are in, `pc` is past the word, and
the word is at hand. -/
def entered (s : State) : State :=
  { s.hostMoves s.nextInput.moves with
    keys := s.nextInput.keys, draw := s.nextInput.draw, script := s.script.tail, cycles := s.cycles + 1,
    pc := s.pc + 2, opcode := s.mem.word s.pc.toNat }

end Sys2Proof.Claims

open Sys2Proof Sys2Proof.Machine Sys2Proof.Claims

/-! ### Encoding -/

/-- 30_encoding R74, R75, R76, R79, R80: the decode table, by the place values of the word's fields. -/
def Obligations.DecodeTable : Prop :=
  decodeWord 0x00E0 = some .clearScreen ∧ decodeWord 0x00EE = some .ret
  ∧ (∀ nnn ≤ 0xFFF, nnn ≠ 0x0E0 → nnn ≠ 0x0EE → decodeWord (wordNNN 0x0 nnn) = some .nop)
  ∧ DecodesNNN 0x1 .jump ∧ DecodesNNN 0x2 .call ∧ DecodesNNN 0xA .setIndex ∧ DecodesNNN 0xB .jumpOffset
  ∧ DecodesXKK 0x3 .skipCondEq ∧ DecodesXKK 0x4 .skipCondNEq ∧ DecodesXKK 0x6 .set ∧ DecodesXKK 0x7 .add
  ∧ DecodesXKK 0xC .random
  ∧ (∀ n ≤ 0xF, DecodesXY 0x5 n .skipCondRegEq ∧ DecodesXY 0x9 n .skipCondRegNEq
      ∧ DecodesXY 0xD n (fun x y => .display x y n))
  ∧ DecodesXY 0x8 0x0 .setR ∧ DecodesXY 0x8 0x1 .binOr ∧ DecodesXY 0x8 0x2 .binAnd ∧ DecodesXY 0x8 0x3 .binXor
  ∧ DecodesXY 0x8 0x4 .addR ∧ DecodesXY 0x8 0x5 .sub12 ∧ DecodesXY 0x8 0x6 .shiftL ∧ DecodesXY 0x8 0x7 .sub21
  ∧ DecodesXY 0x8 0xE .shiftR
  ∧ (∀ n ∈ [0x8, 0x9, 0xA, 0xB, 0xC, 0xD, 0xF], ∀ x y, decodeWord (wordXYN 0x8 x y n) = none)
  ∧ DecodesX 0xE 0x9E .skipIfPressed ∧ DecodesX 0xE 0xA1 .skipIfNotPressed
  ∧ (∀ kk ≤ 0xFF, kk ∉ [0x9E, 0xA1] → ∀ x, decodeWord (wordXKK 0xE x kk) = none)
  ∧ DecodesX 0xF 0x07 .regFromDelayTimer ∧ DecodesX 0xF 0x0A .getPressedValue ∧ DecodesX 0xF 0x15 .delayTimerFromReg
  ∧ DecodesX 0xF 0x18 .soundTimerFromReg ∧ DecodesX 0xF 0x1E .addToIndex ∧ DecodesX 0xF 0x29 .fontCharacter
  ∧ DecodesX 0xF 0x33 .hexToDecimalToIndex ∧ DecodesX 0xF 0x55 .storeRegs ∧ DecodesX 0xF 0x65 .loadRegs
  ∧ (∀ kk ≤ 0xFF, kk ∉ [0x07, 0x0A, 0x15, 0x18, 0x1E, 0x29, 0x33, 0x55, 0x65] →
      ∀ x, decodeWord (wordXKK 0xF x kk) = none)

/-- 30_encoding R74, R84: decoding the word of a well-formed instruction gives it back, every operand at every value. -/
def Obligations.DecodeEncode : Prop := ∀ i : Instr, i.wellFormed = true → decodeWord (encode i) = some i

/-- 30_encoding R72, R74: what the decoder gives is well formed, and the word has the fixed bits of its row. -/
def Obligations.DecodedMatchesRow : Prop :=
  ∀ (op : Word) (i : Instr), decodeWord op = some i → i.wellFormed = true ∧ op &&& i.row.mask = i.row.value

/-- 30_encoding R81: where no field is ignored, encoding what was decoded gives the word back. -/
def Obligations.EncodeDecode : Prop :=
  ∀ (op : Word) (i : Instr), decodeWord op = some i →
    i ≠ .nop → (∀ x y, i ≠ .skipCondRegEq x y) → (∀ x y, i ≠ .skipCondRegNEq x y) → encode i = op

/-- 30_encoding R82: how many words of each group are legal and how many are not; 55,728 and 9,808 in all. -/
def Obligations.LegalWordCount : Prop :=
  (∀ n1 < 16, n1 ∉ [0x8, 0xE, 0xF] → ∀ nnn ≤ 0xFFF, (decodeWord (wordNNN n1 nnn)).isSome = true)
  ∧ (legalWords 0x8 = 9 * 256 ∧ illegalWords 0x8 = 7 * 256)
  ∧ (legalWords 0xE = 2 * 16 ∧ illegalWords 0xE = 4064)
  ∧ (legalWords 0xF = 9 * 16 ∧ illegalWords 0xF = 3952)
  ∧ 13 * 4096 + legalWords 0x8 + legalWords 0xE + legalWords 0xF = 55728
  ∧ illegalWords 0x8 + illegalWords 0xE + illegalWords 0xF = 9808

/-- 30_encoding R86 and words of 95_test_vectors 2.1, one of each family, read from bytes. -/
def Obligations.SampleWords : Prop :=
  decode [0x6A, 0x3F] = .ok (.set 0xA 0x3F, []) ∧ decode [0xD1, 0x23] = .ok (.display 1 2 3, [])
  ∧ decode [0x2A, 0xBC] = .ok (.call 0xABC, []) ∧ decode [0xFA, 0x33] = .ok (.hexToDecimalToIndex 0xA, [])
  ∧ decode [0xEA, 0xA1] = .ok (.skipIfNotPressed 0xA, []) ∧ decode [0x8A, 0xB6] = .ok (.shiftL 0xA 0xB, [])

/-! ### Integers in two's complement -/

/-- 00_scope R9: AND, OR and XOR act bit by bit on the two's-complement form of unbounded integers. -/
def Obligations.BitwiseTwosComplement : Prop :=
  ∀ (a b : Int) (k : Nat),
    (bitOf k (intAnd a b) = 1 ↔ bitOf k a = 1 ∧ bitOf k b = 1)
    ∧ (bitOf k (intOr a b) = 1 ↔ bitOf k a = 1 ∨ bitOf k b = 1)
    ∧ (bitOf k (intXor a b) = 1 ↔ bitOf k a ≠ bitOf k b)

/-- 41_alu R124, R125, R126: under a window `[-2^k, 2^k - 1]` no bitwise result leaves the window. -/
def Obligations.BitwiseStaysInWindow : Prop :=
  ∀ (k : Nat) (a b : Int), -2 ^ k ≤ a ∧ a < 2 ^ k → -2 ^ k ≤ b ∧ b < 2 ^ k →
    (-2 ^ k ≤ intAnd a b ∧ intAnd a b < 2 ^ k) ∧ (-2 ^ k ≤ intOr a b ∧ intOr a b < 2 ^ k)
    ∧ (-2 ^ k ≤ intXor a b ∧ intXor a b < 2 ^ k)

/-- 92_eei D42: the start coordinates of Display are the register values modulo the grid. -/
def Obligations.StartCoordinates : Prop :=
  ∀ v : Int, (startColumn v : Int) = v % 64 ∧ (startRow v : Int) = v % 32

/-! ### Control flow -/

/-- 40_control R100. -/
def Obligations.NopChangesNothing : Prop :=
  (∀ nnn ≤ 0xFFF, nnn ≠ 0x0E0 → nnn ≠ 0x0EE → decodeWord (wordNNN 0x0 nnn) = some .nop)
  ∧ ∀ s : State, Completes .nop s s

/-- 40_control R101, 10_state R30. -/
def Obligations.ReturnPops : Prop :=
  decodeWord 0x00EE = some .ret
  ∧ ∀ s : State,
    (∀ (rest : List Word) (top : Word), s.stack = rest ++ [top] → Completes .ret s { s with pc := top, stack := rest })
    ∧ (s.stack = [] → Faults .ret s .stackUnderflow)

/-- 40_control R102. -/
def Obligations.JumpSetsPc : Prop :=
  DecodesNNN 0x1 .jump
  ∧ ∀ (s : State) (target : Word), Completes (.jump target.toNat) s { s with pc := target }

/-- 40_control R103, 10_state R30. -/
def Obligations.CallPushes : Prop :=
  DecodesNNN 0x2 .call
  ∧ ∀ (s : State) (target : Word),
    (s.stack.length < 16 →
      Completes (.call target.toNat) s { s with stack := s.stack ++ [s.pc], pc := target })
    ∧ (s.stack.length = 16 → Faults (.call target.toNat) s .stackOverflow)

/-- 40_control R103, R101: a Return after a Call restores the post-fetch `pc` and the stack. -/
def Obligations.CallThenReturn : Prop :=
  ∀ (s t : State) (addr : Nat), addr ≤ 0xFFF → s.stack.length < 16 → exec (.call addr) s = .next t →
    ∀ (pc : Word) (op : Word), Completes .ret { t with pc := pc, opcode := op } { s with opcode := op }

/-- 40_control R104, 30_encoding R78. -/
def Obligations.JumpOffsetAddsV0 : Prop :=
  DecodesNNN 0xB .jumpOffset
  ∧ ∀ (s : State) (nnn : Nat),
    (∀ target : Word, (target.toNat : Int) = nnn + s.reg 0 → Completes (.jumpOffset nnn) s { s with pc := target })
    ∧ (nnn + s.reg 0 < 0 ∨ 0xFFFF < nnn + s.reg 0 → Faults (.jumpOffset nnn) s (.pcRange (nnn + s.reg 0)))

/-- 40_control R105, R106, R107, R108, R109. -/
def Obligations.ConditionalSkips : Prop :=
  DecodesXKK 0x3 .skipCondEq ∧ DecodesXKK 0x4 .skipCondNEq
  ∧ (∀ n ≤ 0xF, DecodesXY 0x5 n .skipCondRegEq ∧ DecodesXY 0x9 n .skipCondRegNEq)
  ∧ ∀ (s : State) (x y : RegIdx) (kk : Nat), RoomToSkip s →
    SkipsWhen (.skipCondEq x kk) s (s.reg x = kk)
    ∧ SkipsWhen (.skipCondNEq x kk) s (s.reg x ≠ kk)
    ∧ SkipsWhen (.skipCondRegEq x y) s (s.reg x = s.reg y)
    ∧ SkipsWhen (.skipCondRegNEq x y) s (s.reg x ≠ s.reg y)

/-! ### Registers and ALU -/

/-- 41_alu R121, R122. -/
def Obligations.SetAndAdd : Prop :=
  DecodesXKK 0x6 .set ∧ DecodesXKK 0x7 .add
  ∧ ∀ (s : State) (x : RegIdx) (kk : Nat),
    WritesReg (.set x kk) s x kk ∧ WritesReg (.add x kk) s x (s.reg x + kk)

/-- 41_alu R123: no fault, because `V[y]` is in the window. -/
def Obligations.SetRCopies : Prop :=
  DecodesXY 0x8 0x0 .setR
  ∧ ∀ (s : State) (x y : RegIdx), s.RegsInWindow → Completes (.setR x y) s { s with v := s.v.set x.val (s.reg y) }

/-- 41_alu R124, R125, R126, with the bitwise operations of statement BitwiseTwosComplement. -/
def Obligations.BitwiseInstructions : Prop :=
  DecodesXY 0x8 0x1 .binOr ∧ DecodesXY 0x8 0x2 .binAnd ∧ DecodesXY 0x8 0x3 .binXor
  ∧ ∀ (s : State) (x y : RegIdx),
    WritesReg (.binOr x y) s x (intOr (s.reg x) (s.reg y))
    ∧ WritesReg (.binAnd x y) s x (intAnd (s.reg x) (s.reg y))
    ∧ WritesReg (.binXor x y) s x (intXor (s.reg x) (s.reg y))

/-- 41_alu R127, R128: exact sums and differences. -/
def Obligations.SumAndDifference : Prop :=
  DecodesXY 0x8 0x4 .addR ∧ DecodesXY 0x8 0x5 .sub12
  ∧ ∀ (s : State) (x y : RegIdx),
    WritesReg (.addR x y) s x (s.reg x + s.reg y) ∧ WritesReg (.sub12 x y) s x (s.reg x - s.reg y)

/-- 41_alu R129: the result is 0 for every input, and 0 is in every window. -/
def Obligations.Sub21IsZero : Prop :=
  DecodesXY 0x8 0x7 .sub21
  ∧ ∀ (s : State) (x y : RegIdx), s.WindowLegal → Completes (.sub21 x y) s { s with v := s.v.set x.val 0 }

/-- 41_alu R130: twice the old value, then VF is its bit 15; `y` has no effect, and the check applies to `x = 0xF` too. -/
def Obligations.ShiftLeft : Prop :=
  DecodesXY 0x8 0x6 .shiftL
  ∧ ∀ (s : State) (x y : RegIdx), s.WindowLegal →
    (s.regMin ≤ s.reg x * 2 ∧ s.reg x * 2 ≤ s.regMax →
      Completes (.shiftL x y) s { s with v := (s.v.set x.val (s.reg x * 2)).set 15 (s.reg x / 2 ^ 15 % 2) })
    ∧ (s.reg x * 2 < s.regMin ∨ s.regMax < s.reg x * 2 → Faults (.shiftL x y) s (.regRange x (s.reg x * 2)))

/-- 41_alu R131: half the old value rounded down, then VF is its bit 0; no fault. -/
def Obligations.ShiftRight : Prop :=
  DecodesXY 0x8 0xE .shiftR
  ∧ ∀ (s : State) (x y : RegIdx), s.WindowLegal → s.RegsInWindow →
    Completes (.shiftR x y) s { s with v := (s.v.set x.val (s.reg x / 2)).set 15 (s.reg x % 2) }

/-- 41_alu R132: the draw AND the mask, for every draw; and the possible results (00_scope R8) are exactly the values
whose set bits are a subset of `kk`'s. -/
def Obligations.RandomMasksDraw : Prop :=
  DecodesXKK 0xC .random
  ∧ (∀ (s : State) (x : RegIdx) (kk : Nat), WritesReg (.random x kk) s x ((s.draw.val &&& kk : Nat) : Int))
  ∧ ∀ kk ≤ 0xFF, ∀ value : Nat, (∃ r : Draw, r.val &&& kk = value) ↔ value &&& kk = value

/-! ### Index and memory -/

/-- 42_index_memory R141. -/
def Obligations.SetIndexSetsI : Prop :=
  DecodesNNN 0xA .setIndex
  ∧ ∀ (s : State) (addr : Word), Completes (.setIndex addr.toNat) s { s with index := addr }

/-- 42_index_memory R142. -/
def Obligations.AddToIndexAdds : Prop :=
  DecodesX 0xF 0x1E .addToIndex
  ∧ ∀ (s : State) (x : RegIdx),
    (∀ sum : Word, (sum.toNat : Int) = s.index.toNat + s.reg x → Completes (.addToIndex x) s { s with index := sum })
    ∧ (s.index.toNat + s.reg x < 0 ∨ 0xFFFF < s.index.toNat + s.reg x →
      Faults (.addToIndex x) s (.indexRange (s.index.toNat + s.reg x)))

/-- 42_index_memory R143, 20_memory R53: the address of glyph `V[x]`. -/
def Obligations.FontCharacterAddress : Prop :=
  DecodesX 0xF 0x29 .fontCharacter
  ∧ ∀ (s : State) (x : RegIdx),
    (∀ d : Fin 16, s.reg x = d.val →
      Completes (.fontCharacter x) s { s with index := BitVec.ofNat 16 (0x50 + 5 * d.val) })
    ∧ (s.reg x < 0 ∨ 15 < s.reg x → Faults (.fontCharacter x) s (.fontRange (s.reg x)))

/-- 42_index_memory R144, 60_exceptions R205: the three digits, and the first check that fails. -/
def Obligations.DecimalDigits : Prop :=
  DecodesX 0xF 0x33 .hexToDecimalToIndex
  ∧ ∀ (s : State) (x : RegIdx),
    (∀ value : Nat, s.reg x = value → value ≤ 255 → s.index.toNat + 2 ≤ 4095 → s.mem.wf = true →
      ∃ m : Memory, Completes (.hexToDecimalToIndex x) s { s with mem := m }
        ∧ (m.read s.index.toNat).toNat = value / 100
        ∧ (m.read (s.index.toNat + 1)).toNat = value / 10 % 10
        ∧ (m.read (s.index.toNat + 2)).toNat = value % 10
        ∧ ∀ a, a < s.index.toNat ∨ s.index.toNat + 2 < a → m.read a = s.mem.read a)
    ∧ (s.reg x < 0 ∨ 255 < s.reg x → Faults (.hexToDecimalToIndex x) s (.bcdRange (s.reg x)))
    ∧ (0 ≤ s.reg x → s.reg x ≤ 255 → 4095 < s.index.toNat + 2 →
      Faults (.hexToDecimalToIndex x) s (.memBounds (max s.index.toNat 4096)))

/-- 42_index_memory R145, 60_exceptions R205: registers 0 to `x` stored, or the fault of the lowest `k`. -/
def Obligations.StoreRegsStores : Prop :=
  DecodesX 0xF 0x55 .storeRegs
  ∧ ∀ (s : State) (x : RegIdx),
    ((∀ k ≤ x, Storable s k) → s.mem.wf = true →
      ∃ m : Memory, Completes (.storeRegs x) s { s with mem := m }
        ∧ (∀ k ≤ x, ((m.read (s.index.toNat + k.val)).toNat : Int) = s.reg k)
        ∧ ∀ a, a < s.index.toNat ∨ s.index.toNat + x.val < a → m.read a = s.mem.read a)
    ∧ ∀ k ≤ x, (∀ j < k, Storable s j) →
      (4095 < s.index.toNat + k.val → Faults (.storeRegs x) s (.memBounds (s.index.toNat + k.val)))
      ∧ (s.index.toNat + k.val ≤ 4095 → s.reg k < 0 ∨ 255 < s.reg k →
        Faults (.storeRegs x) s (.memValue (s.index.toNat + k.val) (s.reg k)))

/-- 42_index_memory R146, 60_exceptions R205: registers 0 to `x` loaded, or the fault of the lowest `k`. -/
def Obligations.LoadRegsLoads : Prop :=
  DecodesX 0xF 0x65 .loadRegs
  ∧ ∀ (s : State) (x : RegIdx), s.regMin ≤ 0 →
    (s.index.toNat + x.val ≤ 4095 → (∀ k ≤ x, (s.mem.read (s.index.toNat + k.val)).toNat ≤ s.regMax) →
      ∃ t : State, Completes (.loadRegs x) s t ∧ t = { s with v := t.v }
        ∧ (∀ k ≤ x, t.reg k = (s.mem.read (s.index.toNat + k.val)).toNat)
        ∧ ∀ k, x < k → t.reg k = s.reg k)
    ∧ ∀ k ≤ x, (∀ j < k, s.index.toNat + j.val ≤ 4095 ∧ (s.mem.read (s.index.toNat + j.val)).toNat ≤ s.regMax) →
      (4095 < s.index.toNat + k.val → Faults (.loadRegs x) s (.memBounds (s.index.toNat + k.val)))
      ∧ (s.index.toNat + k.val ≤ 4095 → s.regMax < (s.mem.read (s.index.toNat + k.val)).toNat →
        Faults (.loadRegs x) s (.regRange k (s.mem.read (s.index.toNat + k.val)).toNat))

/-- 42_index_memory R146 (the source's round trip): LoadRegs after StoreRegs gives every stored register back, whatever
the registers were set to in between. -/
def Obligations.StoreThenLoad : Prop :=
  ∀ (s t : State) (x : RegIdx) (v : Vector Int 16), s.mem.wf = true → s.WindowHoldsBytes →
    (∀ k ≤ x, Storable s k) → exec (.storeRegs x) s = .next t →
    ∃ u : State, Completes (.loadRegs x) { t with v := v } u ∧ ∀ k ≤ x, u.reg k = s.reg k

/-! ### Display -/

/-- 43_display R161. -/
def Obligations.ClearScreenClears : Prop :=
  decodeWord 0x00E0 = some .clearScreen
  ∧ ∀ s : State, ∃ fb : Framebuffer, Completes .clearScreen s { s with fb := fb }
    ∧ ∀ x < 64, ∀ y < 32, Framebuffer.pixel fb x y = false

/-- 43_display R160, R162, R163: the XOR engine. Every visible pixel becomes its old value XOR the sprite's bit, and VF
becomes 1 exactly when some visible pixel that was set is in the sprite. A sprite row outside memory faults, clipped or
not, and draws nothing (60_exceptions R205). -/
def Obligations.DisplayXors : Prop :=
  (∀ n ≤ 0xF, DecodesXY 0xD n (fun x y => .display x y n))
  ∧ (∀ (s : State) (x y : RegIdx) (n : Nat), 1 ≤ n → 4095 < s.index.toNat + n - 1 →
      Faults (.display x y n) s (.memBounds (max s.index.toNat 4096)))
  ∧ ∀ (s : State) (x y : RegIdx) (n : Nat), s.WindowLegal → (n = 0 ∨ s.index.toNat + n ≤ 4096) →
    ∃ (fb : Framebuffer) (flag : Int),
      Completes (.display x y n) s { s with fb := fb, v := s.v.set 15 flag }
      ∧ (∀ px < 64, ∀ py < 32, Framebuffer.pixel fb px py =
          (s.pixel px py ^^ spriteAt s (s.reg x % 64).toNat (s.reg y % 32).toNat n px py))
      ∧ (flag = 0 ∨ flag = 1)
      ∧ (flag = 1 ↔ ∃ px < 64, ∃ py < 32, s.pixel px py = true
          ∧ spriteAt s (s.reg x % 64).toNat (s.reg y % 32).toNat n px py = true)

/-! ### Keys and timers -/

/-- 44_keys_timers R171, R172. -/
def Obligations.KeySkips : Prop :=
  DecodesX 0xE 0x9E .skipIfPressed ∧ DecodesX 0xE 0xA1 .skipIfNotPressed
  ∧ ∀ (s : State) (x : RegIdx),
    (∀ k : Fin 16, s.reg x = k.val → RoomToSkip s →
      SkipsWhen (.skipIfPressed x) s (s.keys[k.val] = true) ∧ SkipsWhen (.skipIfNotPressed x) s (s.keys[k.val] = false))
    ∧ (s.reg x < 0 ∨ 15 < s.reg x →
      Faults (.skipIfPressed x) s (.keyRange (s.reg x)) ∧ Faults (.skipIfNotPressed x) s (.keyRange (s.reg x)))

/-- 44_keys_timers R173: the lowest pressed key, or a retry. -/
def Obligations.KeyWait : Prop :=
  DecodesX 0xF 0x0A .getPressedValue
  ∧ ∀ (s : State) (x : RegIdx),
    (∀ k : Fin 16, s.keys[k.val] = true → (∀ j < k, s.keys[j.val] = false) →
      WritesReg (.getPressedValue x) s x k.val)
    ∧ ((∀ k : Fin 16, s.keys[k.val] = false) → 2 ≤ s.pc.toNat →
      Completes (.getPressedValue x) s { s with pc := s.pc - 2 })

/-- 44_keys_timers R174. -/
def Obligations.DelayTimerRead : Prop :=
  DecodesX 0xF 0x07 .regFromDelayTimer
  ∧ ∀ (s : State) (x : RegIdx), WritesReg (.regFromDelayTimer x) s x s.dt.toNat

/-- 44_keys_timers R175, R176. -/
def Obligations.TimerWrites : Prop :=
  DecodesX 0xF 0x15 .delayTimerFromReg ∧ DecodesX 0xF 0x18 .soundTimerFromReg
  ∧ ∀ (s : State) (x : RegIdx),
    (∀ b : Byte, s.reg x = b.toNat →
      Completes (.delayTimerFromReg x) s { s with dt := b } ∧ Completes (.soundTimerFromReg x) s { s with st := b })
    ∧ (s.reg x < 0 ∨ 255 < s.reg x →
      Faults (.delayTimerFromReg x) s (.timerValue (s.reg x)) ∧ Faults (.soundTimerFromReg x) s (.timerValue (s.reg x)))

/-- 60_exceptions R212, 70_reset R245: after `n` ticks each timer is down by `n`, stopping at 0, and nothing else has
changed, halted or not. The decrement by 1 that stops at 0 is the model's choice after the spec's (log 9). -/
def Obligations.TicksCountDown : Prop :=
  ∀ (s : State) (n : Nat), ∃ d e : Byte,
    s.hostMoves (List.replicate n .tick) = { s with dt := d, st := e }
    ∧ d.toNat = s.dt.toNat - n ∧ e.toNat = s.st.toNat - n

/-- 60_exceptions R212, 10_state R37 (ports `dt_wr`, `st_wr`, `t_wdata`): the host sets one timer and nothing else, halted
or not. A list of host moves acts oldest first; that moves come as a list is the model's form of them (log 6). -/
def Obligations.HostMovesAct : Prop :=
  ∀ s : State,
    (∀ b : Byte, s.hostMoves [.setDelay b] = { s with dt := b } ∧ s.hostMoves [.setSound b] = { s with st := b })
    ∧ s.hostMoves [] = s
    ∧ (∀ (m : HostMove) (later : List HostMove), s.hostMoves (m :: later) = (s.hostMoves [m]).hostMoves later)
    ∧ ∀ earlier later : List HostMove, s.hostMoves (earlier ++ later) = (s.hostMoves earlier).hostMoves later

/-! ### Memory -/

/-- 20_memory R57, R58: the checked one-byte accesses. -/
def Obligations.CheckedAccesses : Prop :=
  ∀ (s : State) (addr : Nat) (value : Int),
    (addr ≤ 4095 → s.memRead addr = .ok (s.mem.read addr))
    ∧ (4095 < addr → s.memRead addr = .error (.memBounds addr) ∧ s.memWrite addr value = .error (.memBounds addr))
    ∧ (addr ≤ 4095 → value < 0 ∨ 255 < value → s.memWrite addr value = .error (.memValue addr value))
    ∧ (∀ b : Byte, addr ≤ 4095 → s.memWrite addr b.toNat = .ok { s with mem := s.mem.write addr b })

/-- 20_memory R62: after any writes inside memory, each read gives the most recent write to that byte, or what it held
if there was none. -/
def Obligations.LastWriteWins : Prop :=
  ∀ (m : Memory) (writes : List (Nat × Byte)) (a : Nat), m.wf = true → (∀ w ∈ writes, w.1 ≤ 4095) →
    (writes.foldl (fun m w => m.write w.1 w.2) m).read a =
      match writes.reverse.find? (fun w => w.1 == a) with
      | some w => w.2
      | none => m.read a

/-- Canonical memories that read alike are equal data: the form is canonical (log 13). -/
def Obligations.CanonicalMemory : Prop :=
  ∀ m n : Memory, m.wf = true → n.wf = true → (∀ a ≤ 4095, m.read a = n.read a) → m = n

/-! ### Fetch, step, faults -/

/-- 20_memory R54, R55: the fetch, and the bounds of `pc` after it. -/
def Obligations.FetchReadsBigEndian : Prop :=
  ∀ s : State,
    (s.pc.toNat + 1 ≤ 4095 → ∃ op : Word, s.fetch = .ok (op, { s with pc := s.pc + 2 })
      ∧ op.toNat = (s.mem.read s.pc.toNat).toNat * 256 + (s.mem.read (s.pc.toNat + 1)).toNat
      ∧ (s.pc + 2).toNat = s.pc.toNat + 2 ∧ (s.pc + 2).toNat ≤ 4096)
    ∧ (4095 < s.pc.toNat + 1 → s.fetch = .error (.fetchBounds s.pc))

/-- 70_reset R235: a step of a running block is `exec` of the instruction that the bytes at `pc` decode to, from the
state `entered`: the host's hand-offs taken in, `pc` past the word, the word at hand. -/
def Obligations.StepRunsDecoded : Prop :=
  ∀ (s : State) (i : Instr), s.halted = none → s.pc.toNat + 1 ≤ 4095 →
    decode [s.mem.read s.pc.toNat, s.mem.read (s.pc.toNat + 1)] = .ok (i, []) → step s = exec i (entered s)

/-- 30_encoding R83, 60_exceptions R202: an illegal word raises `DECODE` after the fetch; a fetch outside memory raises
`FETCH_BOUNDS` with no opcode and `pc` where it was. -/
def Obligations.StepFaultsBeforeExecute : Prop :=
  ∀ s : State, s.halted = none →
    (s.pc.toNat + 1 ≤ 4095 → decodeWord (s.mem.word s.pc.toNat) = none →
      step s = .next { entered s with
        halted := some { cause := .decode (s.mem.word s.pc.toNat), opcode := some (s.mem.word s.pc.toNat), pc := s.pc + 2 } })
    ∧ (4095 < s.pc.toNat + 1 →
      step s = .next { entered s with
        pc := s.pc, opcode := s.opcode,
        halted := some { cause := .fetchBounds s.pc, opcode := none, pc := s.pc } })

/-- 70_reset R236: a halted block has no step, and the step input leaves it as it is. -/
def Obligations.HaltedHasNoStep : Prop :=
  ∀ (s : State) (r : FaultRecord), s.halted = some r → step s = .fault (.halted r) ∧ s.pulse = s

/-- 60_exceptions R202, R203: an instruction that raises a fault changes nothing but `halted`, whose record holds the
opcode and the post-fetch `pc`. -/
def Obligations.FaultsArePrecise : Prop :=
  ∀ (i : Instr) (s t : State), exec i s = .next t → t.halted ≠ s.halted →
    ∃ cause : Cause, cause.reachable = true ∧ cause.code ≠ 1 ∧ cause.code ≠ 2
      ∧ t = { s with halted := some { cause := cause, opcode := some s.opcode, pc := s.pc } }

/-- 60_exceptions R203: the state after a cycle that faults is the state before it but for `pc` past a fetched word, the
key snapshot, the record, the host's timer moves before the cycle, and the model's own fields. -/
def Obligations.FaultedStepState : Prop :=
  ∀ s t : State, s.halted = none → step s = .next t → t.halted ≠ none →
    t.pc = (if s.pc.toNat + 1 ≤ 4095 then s.pc + 2 else s.pc) ∧ t.keys = s.nextInput.keys
    ∧ t.mem = s.mem ∧ t.v = s.v ∧ t.index = s.index ∧ t.stack = s.stack ∧ t.fb = s.fb
    ∧ t.dt = (s.hostMoves s.nextInput.moves).dt ∧ t.st = (s.hostMoves s.nextInput.moves).st
    ∧ t.regMin = s.regMin ∧ t.regMax = s.regMax

/-! ### Who writes what, over all instructions -/

/-- 10_state R24: an instruction writes no register but those of its row. -/
def Obligations.RegisterWriters : Prop :=
  ∀ (i : Instr) (s t : State) (k : RegIdx), exec i s = .next t → k ∉ writes i → t.reg k = s.reg k

/-- 10_state R25: only the skips, Jump, Call, Return, JumpOffset and GetPressedValue change `pc` after the fetch. -/
def Obligations.PcWriters : Prop :=
  ∀ (i : Instr) (s t : State), exec i s = .next t → movesPc i = false → t.pc = s.pc

/-- 10_state R27, R29, R31, R32, R33, 20_memory R59: `I` has three writers, memory two, the stack two, `DT` one, `ST`
one, the framebuffer two, the key vector none; the parameters and the cycle's inputs no instruction changes. -/
def Obligations.OtherWriters : Prop :=
  ∀ (i : Instr) (s t : State), exec i s = .next t →
    (writesIndex i = false → t.index = s.index)
    ∧ (storesMem i = false → t.mem = s.mem)
    ∧ ((i ≠ .ret ∧ ∀ a, i ≠ .call a) → t.stack = s.stack)
    ∧ ((∀ x, i ≠ .delayTimerFromReg x) → t.dt = s.dt)
    ∧ ((∀ x, i ≠ .soundTimerFromReg x) → t.st = s.st)
    ∧ ((i ≠ .clearScreen ∧ ∀ x y n, i ≠ .display x y n) → t.fb = s.fb)
    ∧ t.keys = s.keys ∧ t.regMin = s.regMin ∧ t.regMax = s.regMax ∧ t.opcode = s.opcode ∧ t.draw = s.draw
    ∧ t.script = s.script ∧ t.cycles = s.cycles

/-- 10_state R23, 41_alu R133: VF changes only under the shifts, Display, and an instruction whose destination is VF. -/
def Obligations.FlagWriters : Prop :=
  ∀ (i : Instr) (s t : State), exec i s = .next t → t.reg 15 ≠ s.reg 15 →
    (∃ x y, i = .shiftL x y ∨ i = .shiftR x y) ∨ (∃ x y n, i = .display x y n)
    ∨ (∃ k, i = .set 15 k ∨ i = .add 15 k ∨ i = .random 15 k)
    ∨ (∃ y, i = .setR 15 y ∨ i = .binOr 15 y ∨ i = .binAnd 15 y ∨ i = .binXor 15 y ∨ i = .addR 15 y
        ∨ i = .sub12 15 y ∨ i = .sub21 15 y)
    ∨ i = .regFromDelayTimer 15 ∨ i = .getPressedValue 15 ∨ i = .loadRegs 15

/-! ### Invariants, reset and the host -/

/-- Every step keeps the invariant: canonical memory, every register in a legal window (10_state R21, R22), at most 16
stack entries (10_state R29), a fault record that agrees with the state (60_exceptions R202, R207). -/
def Obligations.StepKeepsInv : Prop := ∀ s t : State, s.Inv → step s = .next t → t.Inv

/-- The state after reset meets the invariant. -/
def Obligations.ResetInv : Prop := State.reset.Inv

/-- 10_state R38, 70_reset R230: the reset values. The font's bytes (log 2) and the window (log 1) are in statement
FreshStates, for every choice of them. -/
def Obligations.ResetValues : Prop :=
  (∀ a, a < 0x050 ∨ 0x09F < a → State.reset.mem.read a = 0)
  ∧ (∀ k, State.reset.reg k = 0) ∧ State.reset.index = 0 ∧ State.reset.pc = 0x200 ∧ State.reset.stack = []
  ∧ State.reset.dt = 0 ∧ State.reset.st = 0 ∧ (∀ k : Fin 16, State.reset.keys[k.val] = false)
  ∧ (∀ x y, State.reset.pixel x y = false) ∧ State.reset.halted = none

/-- 00_scope R7, 20_memory R53, 10_state R38: a fresh state for every font, window and initial framebuffer. Glyph `d` is
the 5 bytes from `0x050 + 5*d`. With the model's default parameters (logs 1, 2 and 3) it is the state after reset. -/
def Obligations.FreshStates : Prop :=
  ∀ (font : Vector Byte 80) (lo hi : Int) (fb : Framebuffer),
    (∀ d r (h : d < 16 ∧ r < 5), (State.createWith font lo hi fb).mem.read (0x050 + 5 * d + r) = font[5 * d + r])
    ∧ (∀ a, a < 0x050 ∨ 0x09F < a → (State.createWith font lo hi fb).mem.read a = 0)
    ∧ (State.createWith font lo hi fb).mem.wf = true
    ∧ State.createWith font lo hi fb =
        { State.reset with mem := (State.createWith font lo hi fb).mem, regMin := lo, regMax := hi, fb := fb }
    ∧ (font.toList = Params.font → State.createWith font Params.regMin Params.regMax Params.fbInit = State.reset)

/-- 70_reset R232, 20_memory R67: the ROM load; and the load port (10_state R37): one byte is written at an address 0x200
to 0xFFF before the first cycle, and a load below 0x200 or after it has no effect. An address beyond the port's 12 bits
has none either, which is the model's choice (log 12). -/
def Obligations.RomLoad : Prop :=
  (∀ (s : State) (addr : Nat) (b : Byte),
    (s.cycles = 0 → 0x200 ≤ addr → addr ≤ 0xFFF → s.loadByte addr b = { s with mem := s.mem.write addr b })
    ∧ (s.cycles ≠ 0 ∨ addr < 0x200 ∨ 0xFFF < addr → s.loadByte addr b = s))
  ∧ ∀ (s : State) (bytes : List Byte),
    (3584 < bytes.length → s.loadRom bytes = .refused (.romTooLong bytes.length))
    ∧ (bytes.length ≤ 3584 → s.cycles ≠ 0 → s.loadRom bytes = .next s)
    ∧ (bytes.length ≤ 3584 → s.cycles = 0 → s.mem.wf = true →
      ∃ m : Memory, s.loadRom bytes = .next { s with mem := m } ∧ m.wf = true
        ∧ (∀ j (h : j < bytes.length), m.read (0x200 + j) = bytes[j])
        ∧ ∀ a, a < 0x200 ∨ 0x200 + bytes.length ≤ a → m.read a = s.mem.read a)

/-- 20_memory R65, 70_reset R242: a word stored where the next step fetches is the word that it runs. -/
def Obligations.StoreIsFetched : Prop :=
  ∀ (s : State) (op : Word) (i : Instr), s.mem.wf = true → s.halted = none → s.pc.toNat + 1 ≤ 4095 →
    decodeWord op = some i →
    step { s with mem := (s.mem.write s.pc.toNat (op.extractLsb' 8 8)).write (s.pc.toNat + 1) (op.extractLsb' 0 8) }
      = exec i (entered { s with
          mem := (s.mem.write s.pc.toNat (op.extractLsb' 8 8)).write (s.pc.toNat + 1) (op.extractLsb' 0 8) })

/-- 70_reset R238, R239: from a finished run every further cycle leaves every field unchanged, but for the key vector,
the host-driven timers and the model's own fields, and the run is finished again. -/
def Obligations.FinishedIsFixed : Prop :=
  ∀ (s : State) (a : Nat), s.FinishedAt a → ∃ t : State, step s = .next t ∧ t.FinishedAt a
    ∧ t = { s with keys := s.nextInput.keys, dt := (s.hostMoves s.nextInput.moves).dt,
                   st := (s.hostMoves s.nextInput.moves).st, draw := s.nextInput.draw, script := s.script.tail,
                   cycles := s.cycles + 1, opcode := BitVec.ofNat 16 (0x1000 + a) }

/-- 60_exceptions R201, R202, 10_state R37: the output ports of a running and of a halted block, and the code that the
port `fault_cause` shows for each of the 14 causes, whatever its diagnostic info. -/
def Obligations.OutputPorts : Prop :=
  CauseCodes
  ∧ ∀ s : State,
    s.outputs.dtOut = s.dt ∧ s.outputs.stOut = s.st
    ∧ (∀ x < 64, ∀ y < 32, s.outputs.fbBit (64 * y + x) = s.pixel x y)
    ∧ (s.halted = none → s.outputs.haltedOut = false ∧ s.outputs.faultCause = 0)
    ∧ ∀ r, s.halted = some r → s.outputs.haltedOut = true ∧ s.outputs.faultCause = r.cause.code
      ∧ s.outputs.faultPc = r.pc ∧ (s.outputs.faultOpcodeValid = true ↔ r.opcode ≠ none)
      ∧ ∀ op, r.opcode = some op → s.outputs.faultOpcode = op
end

