-- ==== Sys2Proof/Laws/Decode.lean ====
section
/-! SUPPORT. The fields of a word written by its place values, and the masks of the opcode table as arithmetic. -/

namespace Sys2Proof

theorem bitField_eq (op : Word) (lo width : Nat) : bitField op lo width = op.toNat / 2 ^ lo % 2 ^ width := by
  simp [bitField, BitVec.extractLsb'_toNat, Nat.shiftRight_eq_div_pow]

theorem regField_val (op : Word) (lo : Nat) : (regField op lo).val = op.toNat / 2 ^ lo % 16 := by
  exact bitField_eq op lo 4

theorem regField_eq (op : Word) (lo : Nat) (x : RegIdx) (h : op.toNat / 2 ^ lo % 16 = x.val) : regField op lo = x :=
  Fin.ext (by rw [regField_val, h])

theorem wordNNN_toNat {n1 nnn : Nat} (h1 : n1 ≤ 15) (h : nnn ≤ 0xFFF) : (wordNNN n1 nnn).toNat = n1 * 4096 + nnn := by
  simp only [wordNNN, BitVec.toNat_ofNat]; omega

theorem wordXKK_toNat {n1 kk : Nat} (x : RegIdx) (h1 : n1 ≤ 15) (h : kk ≤ 0xFF) :
    (wordXKK n1 x kk).toNat = n1 * 4096 + x.val * 256 + kk := by
  simp only [wordXKK, BitVec.toNat_ofNat]; omega

theorem wordXYN_toNat {n1 n : Nat} (x y : RegIdx) (h1 : n1 ≤ 15) (h : n ≤ 0xF) :
    (wordXYN n1 x y n).toNat = n1 * 4096 + x.val * 256 + y.val * 16 + n := by
  simp only [wordXYN, BitVec.toNat_ofNat]; omega

/-- The decoder sees the fields of a word `n1 nnn`. -/
theorem decodeWord_wordNNN {n1 nnn : Nat} (h1 : n1 ≤ 15) (h : nnn ≤ 0xFFF) :
    decodeWord (wordNNN n1 nnn) =
      decodeFields n1 ⟨nnn / 256, by omega⟩ ⟨nnn / 16 % 16, by omega⟩ (nnn % 16) (nnn % 256) nnn := by
  have e := wordNNN_toNat h1 h
  simp only [decodeWord, bitField_eq, e]
  rw [regField_eq _ 8 ⟨nnn / 256, by omega⟩ (by rw [e]; simp only; omega),
    regField_eq _ 4 ⟨nnn / 16 % 16, by omega⟩ (by rw [e]; simp only; omega)]
  congr 1 <;> omega

/-- The decoder sees the fields of a word `n1 x kk`. -/
theorem decodeWord_wordXKK {n1 kk : Nat} (x : RegIdx) (h1 : n1 ≤ 15) (h : kk ≤ 0xFF) :
    decodeWord (wordXKK n1 x kk) =
      decodeFields n1 x ⟨kk / 16, by omega⟩ (kk % 16) kk (x.val * 256 + kk) := by
  have e := wordXKK_toNat x h1 h
  simp only [decodeWord, bitField_eq, e]
  rw [regField_eq _ 8 x (by rw [e]; omega),
    regField_eq _ 4 ⟨kk / 16, by omega⟩ (by rw [e]; simp only; omega)]
  congr 1 <;> omega

/-- The decoder sees the fields of a word `n1 x y n`. -/
theorem decodeWord_wordXYN {n1 n : Nat} (x y : RegIdx) (h1 : n1 ≤ 15) (h : n ≤ 0xF) :
    decodeWord (wordXYN n1 x y n) =
      decodeFields n1 x y n (y.val * 16 + n) (x.val * 256 + y.val * 16 + n) := by
  have e := wordXYN_toNat x y h1 h
  simp only [decodeWord, bitField_eq, e]
  rw [regField_eq _ 8 x (by rw [e]; omega), regField_eq _ 4 y (by rw [e]; omega)]
  congr 1 <;> omega

/-! ### The masks of the opcode table -/

theorem mask_F000 (w : Word) : (w &&& 0xF000).toNat = w.toNat / 4096 * 4096 := by
  have h : w &&& 0xF000 = w.extractLsb' 12 4 ++ 0#12 := by
    apply BitVec.eq_of_getLsbD_eq
    intro i hi
    refine Eq.trans ?_ BitVec.getLsbD_append.symm
    interval_cases i <;> simp [-BitVec.getLsbD_eq_getElem]
  rw [h, BitVec.toNat_append, BitVec.extractLsb'_toNat, Nat.shiftRight_eq_div_pow]
  simp only [BitVec.toNat_ofNat, Nat.zero_mod, Nat.or_zero, Nat.shiftLeft_eq]
  have := w.isLt; omega

theorem mask_F00F (w : Word) : (w &&& 0xF00F).toNat = w.toNat / 4096 * 4096 + w.toNat % 16 := by
  have h : w &&& 0xF00F = (w.extractLsb' 12 4 ++ 0#8) ++ w.extractLsb' 0 4 := by
    apply BitVec.eq_of_getLsbD_eq
    intro i hi
    have inner (j : Nat) : (w.extractLsb' 12 4 ++ 0#8).getLsbD j = _ := BitVec.getLsbD_append
    refine Eq.trans ?_ BitVec.getLsbD_append.symm
    rw [inner]
    interval_cases i <;> simp [-BitVec.getLsbD_eq_getElem]
  rw [h, BitVec.toNat_append, BitVec.toNat_append, BitVec.extractLsb'_toNat, BitVec.extractLsb'_toNat,
    ← Nat.shiftLeft_add_eq_or_of_lt (Nat.mod_lt _ (by decide))]
  simp only [BitVec.toNat_ofNat, Nat.zero_mod, Nat.or_zero, Nat.shiftLeft_eq, Nat.shiftRight_eq_div_pow]
  have := w.isLt; omega

theorem mask_F0FF (w : Word) : (w &&& 0xF0FF).toNat = w.toNat / 4096 * 4096 + w.toNat % 256 := by
  have h : w &&& 0xF0FF = (w.extractLsb' 12 4 ++ 0#4) ++ w.extractLsb' 0 8 := by
    apply BitVec.eq_of_getLsbD_eq
    intro i hi
    have inner (j : Nat) : (w.extractLsb' 12 4 ++ 0#4).getLsbD j = _ := BitVec.getLsbD_append
    refine Eq.trans ?_ BitVec.getLsbD_append.symm
    rw [inner]
    interval_cases i <;> simp [-BitVec.getLsbD_eq_getElem]
  rw [h, BitVec.toNat_append, BitVec.toNat_append, BitVec.extractLsb'_toNat, BitVec.extractLsb'_toNat,
    ← Nat.shiftLeft_add_eq_or_of_lt (Nat.mod_lt _ (by decide))]
  simp only [BitVec.toNat_ofNat, Nat.zero_mod, Nat.or_zero, Nat.shiftLeft_eq, Nat.shiftRight_eq_div_pow]
  have := w.isLt; omega

/-- A word `n1 nnn` has the fixed bits `n1`. -/
theorem wordNNN_mask {n1 nnn : Nat} (h1 : n1 ≤ 15) (h : nnn ≤ 0xFFF) (v : Word) (hv : v.toNat = n1 * 4096) :
    wordNNN n1 nnn &&& 0xF000 = v := by
  apply BitVec.eq_of_toNat_eq; rw [mask_F000, wordNNN_toNat h1 h, hv]; omega

/-- A word `n1 x kk` has the fixed bits `n1`. -/
theorem wordXKK_mask {n1 kk : Nat} (x : RegIdx) (h1 : n1 ≤ 15) (h : kk ≤ 0xFF) (v : Word) (hv : v.toNat = n1 * 4096) :
    wordXKK n1 x kk &&& 0xF000 = v := by
  apply BitVec.eq_of_toNat_eq; rw [mask_F000, wordXKK_toNat x h1 h, hv]; omega

/-- A word `n1 x kk` has the fixed bits `n1` and `kk`. -/
theorem wordXKK_mask_low {n1 kk : Nat} (x : RegIdx) (h1 : n1 ≤ 15) (h : kk ≤ 0xFF) (v : Word)
    (hv : v.toNat = n1 * 4096 + kk) : wordXKK n1 x kk &&& 0xF0FF = v := by
  apply BitVec.eq_of_toNat_eq; rw [mask_F0FF, wordXKK_toNat x h1 h, hv]; omega

/-- A word `n1 x y n` has the fixed bits `n1`. -/
theorem wordXYN_mask {n1 n : Nat} (x y : RegIdx) (h1 : n1 ≤ 15) (h : n ≤ 0xF) (v : Word) (hv : v.toNat = n1 * 4096) :
    wordXYN n1 x y n &&& 0xF000 = v := by
  apply BitVec.eq_of_toNat_eq; rw [mask_F000, wordXYN_toNat x y h1 h, hv]; omega

/-- A word `n1 x y n` has the fixed bits `n1` and `n`. -/
theorem wordXYN_mask_low {n1 n : Nat} (x y : RegIdx) (h1 : n1 ≤ 15) (h : n ≤ 0xF) (v : Word)
    (hv : v.toNat = n1 * 4096 + n) : wordXYN n1 x y n &&& 0xF00F = v := by
  apply BitVec.eq_of_toNat_eq; rw [mask_F00F, wordXYN_toNat x y h1 h, hv]; omega

end Sys2Proof
end

