-- ==== Sys2Proof/Laws/Memory.lean ====
section
/-! SUPPORT. Memory: every operation keeps the canonical form, a read after a write, and the fetched word. -/

namespace Sys2Proof.Machine

theorem Memory.read_cons (cell : Host.Cell) (rest : Memory) (a : Nat) :
    Memory.read (cell :: rest) a = if cell.1 = a then cell.2 else Memory.read rest a := rfl

theorem Memory.wfFrom_cons (lo : Nat) (cell : Host.Cell) (rest : Memory) :
    Memory.wfFrom lo (cell :: rest) = true ↔
      lo ≤ cell.1 ∧ cell.1 < 4096 ∧ cell.2 ≠ Memory.unlisted cell.1 ∧ Memory.wfFrom (cell.1 + 1) rest = true := by
  simp [Memory.wfFrom, Config.memSize, and_assoc]

/-- A canonical list from `lo` is canonical from any lower address. -/
theorem Memory.wfFrom_mono {lo lo' : Nat} (h : lo' ≤ lo) : ∀ {m : Memory}, Memory.wfFrom lo m = true →
    Memory.wfFrom lo' m = true
  | [], _ => rfl
  | cell :: rest, hm => by
    rw [Memory.wfFrom_cons] at hm ⊢
    exact ⟨le_trans h hm.1, hm.2⟩

/-- Below a canonical list every address reads as unlisted. -/
theorem Memory.read_below {a : Nat} : ∀ {m : Memory} {lo : Nat}, Memory.wfFrom lo m = true → a < lo →
    m.read a = Memory.unlisted a
  | [], _, _, _ => rfl
  | cell :: rest, lo, hm, ha => by
    rw [Memory.wfFrom_cons] at hm
    rw [Memory.read_cons, if_neg (by omega)]
    exact Memory.read_below hm.2.2.2 (by omega)

theorem Memory.wfFrom_drop (a : Nat) : ∀ {m : Memory} {lo : Nat}, Memory.wfFrom lo m = true →
    Memory.wfFrom lo (m.drop a) = true
  | [], _, _ => rfl
  | cell :: rest, lo, hm => by
    have hm' := hm
    rw [Memory.wfFrom_cons] at hm
    simp only [Memory.drop]
    split
    · exact Memory.wfFrom_mono (by omega) hm.2.2.2
    · rw [Memory.wfFrom_cons]
      exact ⟨hm.1, hm.2.1, hm.2.2.1, Memory.wfFrom_drop a hm.2.2.2⟩

theorem Memory.wfFrom_put {a : Nat} {b : Byte} (ha : a < 4096) (hb : b ≠ Memory.unlisted a) :
    ∀ {m : Memory} {lo : Nat}, lo ≤ a → Memory.wfFrom lo m = true → Memory.wfFrom lo (m.put a b) = true
  | [], lo, hlo, _ => by
    simp only [Memory.put]
    exact (Memory.wfFrom_cons lo (a, b) []).mpr ⟨hlo, ha, hb, rfl⟩
  | cell :: rest, lo, hlo, hm => by
    rw [Memory.wfFrom_cons] at hm
    simp only [Memory.put]
    split
    · next h =>
      exact (Memory.wfFrom_cons lo (a, b) _).mpr
        ⟨hlo, ha, hb, (Memory.wfFrom_cons (a + 1) cell rest).mpr ⟨h, hm.2⟩⟩
    · split
      · next h =>
        subst h
        exact (Memory.wfFrom_cons lo (cell.1, b) rest).mpr ⟨hlo, ha, hb, hm.2.2.2⟩
      · rw [Memory.wfFrom_cons]
        exact ⟨hm.1, hm.2.1, hm.2.2.1, Memory.wfFrom_put ha hb (by omega) hm.2.2.2⟩

/-- Writing a byte inside memory keeps the canonical form. -/
theorem Memory.wf_write {m : Memory} {a : Nat} (b : Byte) (hm : m.wf = true) (ha : a ≤ 4095) :
    (m.write a b).wf = true := by
  unfold Memory.write Memory.wf
  split
  · exact Memory.wfFrom_drop a hm
  · next h => exact Memory.wfFrom_put (by omega) h (Nat.zero_le a) hm

theorem Memory.read_put (a : Nat) (b : Byte) (x : Nat) : ∀ {m : Memory} {lo : Nat}, Memory.wfFrom lo m = true →
    (m.put a b).read x = if x = a then b else m.read x
  | [], _, _ => by simp only [Memory.put, Memory.read_cons, eq_comm]
  | cell :: rest, lo, hm => by
    rw [Memory.wfFrom_cons] at hm
    simp only [Memory.put]
    split
    · simp only [Memory.read_cons, eq_comm]
    · split
      · next h => subst h; simp only [Memory.read_cons]; grind
      · have ih := Memory.read_put a b x hm.2.2.2
        simp only [Memory.read_cons, ih]; grind

theorem Memory.read_drop (a x : Nat) : ∀ {m : Memory} {lo : Nat}, Memory.wfFrom lo m = true →
    (m.drop a).read x = if x = a then Memory.unlisted a else m.read x
  | [], _, _ => by simp only [Memory.drop, Memory.read]; grind
  | cell :: rest, lo, hm => by
    rw [Memory.wfFrom_cons] at hm
    simp only [Memory.drop]
    split
    · next h =>
      subst h
      rw [Memory.read_cons]
      split
      · next h => rw [h]; exact Memory.read_below hm.2.2.2 (by omega)
      · rw [if_neg (by omega)]
    · have ih := Memory.read_drop a x hm.2.2.2
      simp only [Memory.read_cons, ih]; grind

/-- A read gives the byte last written there, and every other byte as before (20_memory R62). -/
theorem Memory.read_write {m : Memory} (hm : m.wf = true) (a : Nat) (b : Byte) (x : Nat) :
    (m.write a b).read x = if x = a then b else m.read x := by
  unfold Memory.write
  split
  · next h => rw [Memory.read_drop a x hm, h]
  · exact Memory.read_put a b x hm

/-- Storing a word inside memory keeps the canonical form. -/
theorem Memory.wf_putWord {m : Memory} {a : Nat} (op : Word) (hm : m.wf = true) (ha : a + 1 ≤ 4095) :
    (m.putWord a op).wf = true := Memory.wf_write _ (Memory.wf_write _ hm (by omega)) ha

theorem wordOfBytes_high_low (op : Word) : wordOfBytes (highByte op) (lowByte op) = op := by
  apply BitVec.eq_of_toNat_eq
  simp only [wordOfBytes, highByte, lowByte, BitVec.toNat_append, BitVec.extractLsb'_toNat, Nat.shiftRight_zero]
  rw [← Nat.shiftLeft_add_eq_or_of_lt (Nat.mod_lt _ (by decide)), Nat.shiftLeft_eq, Nat.shiftRight_eq_div_pow]
  have := op.isLt
  omega

theorem wordOfBytes_toNat (hi lo : Byte) : (wordOfBytes hi lo).toNat = hi.toNat * 256 + lo.toNat := by
  simp only [wordOfBytes, BitVec.toNat_append]
  rw [← Nat.shiftLeft_add_eq_or_of_lt lo.isLt, Nat.shiftLeft_eq]

/-- The word stored at an address is the word fetched there. -/
theorem Memory.word_putWord {m : Memory} (hm : m.wf = true) (a : Nat) (ha : a + 1 ≤ 4095) (op : Word) :
    (m.putWord a op).word a = op := by
  simp only [Memory.word, Memory.putWord, Memory.read_write (Memory.wf_write _ hm (show a ≤ 4095 by omega)),
    Memory.read_write hm]
  simp [wordOfBytes_high_low]

/-- Bytes written one after another inside memory keep the canonical form. -/
theorem Memory.wf_writeFrom : ∀ (bytes : List Byte) {m : Memory} {a : Nat}, m.wf = true → a + bytes.length ≤ 4096 →
    (m.writeFrom a bytes).wf = true
  | [], _, _, hm, _ => hm
  | b :: bs, m, a, hm, ha => by
    simp only [List.length_cons] at ha
    exact Memory.wf_writeFrom bs (Memory.wf_write b hm (by omega)) (by omega)

/-- The memory after reset is canonical. -/
theorem State.reset_mem_wf : State.reset.mem.wf = true := rfl

end Sys2Proof.Machine
end

