-- ==== Sys2Proof/Laws/State.lean ====
section
/-! SUPPORT. One lemma per field per named update of the state, so that no proof unfolds a record update. -/

namespace Sys2Proof.Machine

@[simp] theorem State.raise_mem (s : State) (c : Cause) (o : Option Word) : (s.raise c o).mem = s.mem := rfl
@[simp] theorem State.raise_v (s : State) (c : Cause) (o : Option Word) : (s.raise c o).v = s.v := rfl
@[simp] theorem State.raise_index (s : State) (c : Cause) (o : Option Word) : (s.raise c o).index = s.index := rfl
@[simp] theorem State.raise_pc (s : State) (c : Cause) (o : Option Word) : (s.raise c o).pc = s.pc := rfl
@[simp] theorem State.raise_stack (s : State) (c : Cause) (o : Option Word) : (s.raise c o).stack = s.stack := rfl
@[simp] theorem State.raise_dt (s : State) (c : Cause) (o : Option Word) : (s.raise c o).dt = s.dt := rfl
@[simp] theorem State.raise_st (s : State) (c : Cause) (o : Option Word) : (s.raise c o).st = s.st := rfl
@[simp] theorem State.raise_fb (s : State) (c : Cause) (o : Option Word) : (s.raise c o).fb = s.fb := rfl
@[simp] theorem State.raise_keys (s : State) (c : Cause) (o : Option Word) : (s.raise c o).keys = s.keys := rfl
@[simp] theorem State.raise_halted (s : State) (c : Cause) (o : Option Word) : (s.raise c o).halted = some { cause := c, opcode := o, pc := s.pc } := rfl
@[simp] theorem State.raise_regMin (s : State) (c : Cause) (o : Option Word) : (s.raise c o).regMin = s.regMin := rfl
@[simp] theorem State.raise_regMax (s : State) (c : Cause) (o : Option Word) : (s.raise c o).regMax = s.regMax := rfl
@[simp] theorem State.raise_opcode (s : State) (c : Cause) (o : Option Word) : (s.raise c o).opcode = s.opcode := rfl
@[simp] theorem State.raise_draw (s : State) (c : Cause) (o : Option Word) : (s.raise c o).draw = s.draw := rfl
@[simp] theorem State.raise_script (s : State) (c : Cause) (o : Option Word) : (s.raise c o).script = s.script := rfl
@[simp] theorem State.raise_cycles (s : State) (c : Cause) (o : Option Word) : (s.raise c o).cycles = s.cycles := rfl

@[simp] theorem State.hostMoves_mem (s : State) (ms : List HostMove) : (s.hostMoves ms).mem = s.mem := rfl
@[simp] theorem State.hostMoves_v (s : State) (ms : List HostMove) : (s.hostMoves ms).v = s.v := rfl
@[simp] theorem State.hostMoves_index (s : State) (ms : List HostMove) : (s.hostMoves ms).index = s.index := rfl
@[simp] theorem State.hostMoves_pc (s : State) (ms : List HostMove) : (s.hostMoves ms).pc = s.pc := rfl
@[simp] theorem State.hostMoves_stack (s : State) (ms : List HostMove) : (s.hostMoves ms).stack = s.stack := rfl
@[simp] theorem State.hostMoves_dt (s : State) (ms : List HostMove) : (s.hostMoves ms).dt = (ms.foldl (fun t m => HostMove.onTimers m t) (s.dt, s.st)).1 := rfl
@[simp] theorem State.hostMoves_st (s : State) (ms : List HostMove) : (s.hostMoves ms).st = (ms.foldl (fun t m => HostMove.onTimers m t) (s.dt, s.st)).2 := rfl
@[simp] theorem State.hostMoves_fb (s : State) (ms : List HostMove) : (s.hostMoves ms).fb = s.fb := rfl
@[simp] theorem State.hostMoves_keys (s : State) (ms : List HostMove) : (s.hostMoves ms).keys = s.keys := rfl
@[simp] theorem State.hostMoves_halted (s : State) (ms : List HostMove) : (s.hostMoves ms).halted = s.halted := rfl
@[simp] theorem State.hostMoves_regMin (s : State) (ms : List HostMove) : (s.hostMoves ms).regMin = s.regMin := rfl
@[simp] theorem State.hostMoves_regMax (s : State) (ms : List HostMove) : (s.hostMoves ms).regMax = s.regMax := rfl
@[simp] theorem State.hostMoves_opcode (s : State) (ms : List HostMove) : (s.hostMoves ms).opcode = s.opcode := rfl
@[simp] theorem State.hostMoves_draw (s : State) (ms : List HostMove) : (s.hostMoves ms).draw = s.draw := rfl
@[simp] theorem State.hostMoves_script (s : State) (ms : List HostMove) : (s.hostMoves ms).script = s.script := rfl
@[simp] theorem State.hostMoves_cycles (s : State) (ms : List HostMove) : (s.hostMoves ms).cycles = s.cycles := rfl

@[simp] theorem State.beginCycle_mem (s : State) (ks : Keys) (r : Draw) : (s.beginCycle ks r).mem = s.mem := rfl
@[simp] theorem State.beginCycle_v (s : State) (ks : Keys) (r : Draw) : (s.beginCycle ks r).v = s.v := rfl
@[simp] theorem State.beginCycle_index (s : State) (ks : Keys) (r : Draw) : (s.beginCycle ks r).index = s.index := rfl
@[simp] theorem State.beginCycle_pc (s : State) (ks : Keys) (r : Draw) : (s.beginCycle ks r).pc = s.pc := rfl
@[simp] theorem State.beginCycle_stack (s : State) (ks : Keys) (r : Draw) : (s.beginCycle ks r).stack = s.stack := rfl
@[simp] theorem State.beginCycle_dt (s : State) (ks : Keys) (r : Draw) : (s.beginCycle ks r).dt = s.dt := rfl
@[simp] theorem State.beginCycle_st (s : State) (ks : Keys) (r : Draw) : (s.beginCycle ks r).st = s.st := rfl
@[simp] theorem State.beginCycle_fb (s : State) (ks : Keys) (r : Draw) : (s.beginCycle ks r).fb = s.fb := rfl
@[simp] theorem State.beginCycle_keys (s : State) (ks : Keys) (r : Draw) : (s.beginCycle ks r).keys = ks := rfl
@[simp] theorem State.beginCycle_halted (s : State) (ks : Keys) (r : Draw) : (s.beginCycle ks r).halted = s.halted := rfl
@[simp] theorem State.beginCycle_regMin (s : State) (ks : Keys) (r : Draw) : (s.beginCycle ks r).regMin = s.regMin := rfl
@[simp] theorem State.beginCycle_regMax (s : State) (ks : Keys) (r : Draw) : (s.beginCycle ks r).regMax = s.regMax := rfl
@[simp] theorem State.beginCycle_opcode (s : State) (ks : Keys) (r : Draw) : (s.beginCycle ks r).opcode = s.opcode := rfl
@[simp] theorem State.beginCycle_draw (s : State) (ks : Keys) (r : Draw) : (s.beginCycle ks r).draw = r := rfl
@[simp] theorem State.beginCycle_script (s : State) (ks : Keys) (r : Draw) : (s.beginCycle ks r).script = s.script.tail := rfl
@[simp] theorem State.beginCycle_cycles (s : State) (ks : Keys) (r : Draw) : (s.beginCycle ks r).cycles = s.cycles + 1 := rfl

@[simp] theorem State.holdOpcode_mem (s : State) (op : Word) : (s.holdOpcode op).mem = s.mem := rfl
@[simp] theorem State.holdOpcode_v (s : State) (op : Word) : (s.holdOpcode op).v = s.v := rfl
@[simp] theorem State.holdOpcode_index (s : State) (op : Word) : (s.holdOpcode op).index = s.index := rfl
@[simp] theorem State.holdOpcode_pc (s : State) (op : Word) : (s.holdOpcode op).pc = s.pc := rfl
@[simp] theorem State.holdOpcode_stack (s : State) (op : Word) : (s.holdOpcode op).stack = s.stack := rfl
@[simp] theorem State.holdOpcode_dt (s : State) (op : Word) : (s.holdOpcode op).dt = s.dt := rfl
@[simp] theorem State.holdOpcode_st (s : State) (op : Word) : (s.holdOpcode op).st = s.st := rfl
@[simp] theorem State.holdOpcode_fb (s : State) (op : Word) : (s.holdOpcode op).fb = s.fb := rfl
@[simp] theorem State.holdOpcode_keys (s : State) (op : Word) : (s.holdOpcode op).keys = s.keys := rfl
@[simp] theorem State.holdOpcode_halted (s : State) (op : Word) : (s.holdOpcode op).halted = s.halted := rfl
@[simp] theorem State.holdOpcode_regMin (s : State) (op : Word) : (s.holdOpcode op).regMin = s.regMin := rfl
@[simp] theorem State.holdOpcode_regMax (s : State) (op : Word) : (s.holdOpcode op).regMax = s.regMax := rfl
@[simp] theorem State.holdOpcode_opcode (s : State) (op : Word) : (s.holdOpcode op).opcode = op := rfl
@[simp] theorem State.holdOpcode_draw (s : State) (op : Word) : (s.holdOpcode op).draw = s.draw := rfl
@[simp] theorem State.holdOpcode_script (s : State) (op : Word) : (s.holdOpcode op).script = s.script := rfl
@[simp] theorem State.holdOpcode_cycles (s : State) (op : Word) : (s.holdOpcode op).cycles = s.cycles := rfl

/-- Reading the register just written, or another one. -/
theorem State.reg_set (s : State) (k j : RegIdx) (value : Int) :
    State.reg { s with v := s.v.set k.val value } j = if k = j then value else s.reg j := by
  simp only [State.reg, Vector.getElem_set, Fin.val_inj]

@[simp] theorem State.reg_set_self (s : State) (k : RegIdx) (value : Int) :
    State.reg { s with v := s.v.set k.val value } k = value := by simp [State.reg_set]

/-- `reg` looks at the registers alone. -/
theorem State.reg_congr {s t : State} (h : s.v = t.v) (k : RegIdx) : s.reg k = t.reg k := by
  simp only [State.reg, h]

@[simp] theorem State.raise_reg (s : State) (c : Cause) (o : Option Word) (k : RegIdx) :
    (s.raise c o).reg k = s.reg k := rfl
@[simp] theorem State.hostMoves_reg (s : State) (ms : List HostMove) (k : RegIdx) :
    (s.hostMoves ms).reg k = s.reg k := rfl
@[simp] theorem State.beginCycle_reg (s : State) (ks : Keys) (r : Draw) (k : RegIdx) :
    (s.beginCycle ks r).reg k = s.reg k := rfl
@[simp] theorem State.holdOpcode_reg (s : State) (op : Word) (k : RegIdx) : (s.holdOpcode op).reg k = s.reg k := rfl

end Sys2Proof.Machine
end

