-- ==== Sys2Proof/Laws/Ops.lean ====
section
/-! SUPPORT. For each shared operation, once, everything it can do. -/

namespace Sys2Proof.Machine

/-! ### The end of an instruction -/

@[simp] theorem State.complete_ok (s t : State) : s.complete (.ok t) = .next t := rfl

@[simp] theorem State.complete_error (s : State) (c : Cause) :
    s.complete (.error c) = .next (s.raise c (some s.opcode)) := rfl

/-- An instruction either writes its result or takes the fault entry from where it started. -/
theorem State.complete_cases {s t : State} {r : Except Cause State} (h : s.complete r = .next t) :
    r = .ok t ∨ ∃ c, r = .error c ∧ t = s.raise c (some s.opcode) := by
  cases r with
  | ok u => left; simp at h; rw [h]
  | error c => right; exact ⟨c, rfl, by simpa using h.symm⟩

/-! ### Checked writes -/

theorem State.setReg_ok (s : State) (i : RegIdx) (x : Int) (h : s.regMin ≤ x ∧ x ≤ s.regMax) :
    s.setReg i x = .ok { s with v := s.v.set i.val x } := by
  simp only [State.setReg]; rw [if_neg (by omega)]

theorem State.setReg_error (s : State) (i : RegIdx) (x : Int) (h : x < s.regMin ∨ s.regMax < x) :
    s.setReg i x = .error (.regRange i x) := by
  simp only [State.setReg]; rw [if_pos (by omega)]

/-- What a register write can do. -/
theorem State.setReg_cases (s : State) (i : RegIdx) (x : Int) :
    (s.inWindow x ∧ s.setReg i x = .ok { s with v := s.v.set i.val x })
    ∨ (¬ s.inWindow x ∧ s.setReg i x = .error (.regRange i x)) := by
  by_cases h : s.regMin ≤ x ∧ x ≤ s.regMax
  · exact .inl ⟨h, s.setReg_ok i x h⟩
  · exact .inr ⟨h, s.setReg_error i x (by omega)⟩

theorem ofInt_toNat_word (w : Word) : BitVec.ofInt 16 (w.toNat : Int) = w := by simp

theorem ofInt_toNat_byte (b : Byte) : BitVec.ofInt 8 (b.toNat : Int) = b := by simp

/-- A checked write of a value that is some word's gives that word. -/
theorem State.setPc_word (s : State) (p : Word) (x : Int) (h : (p.toNat : Int) = x) :
    s.setPc x = .ok { s with pc := p } := by
  subst h
  have := p.isLt
  simp only [State.setPc]; rw [if_neg (by omega), ofInt_toNat_word]

theorem State.setPc_error (s : State) (x : Int) (h : x < 0 ∨ 0xFFFF < x) : s.setPc x = .error (.pcRange x) := by
  simp only [State.setPc]; rw [if_pos (by omega)]

/-- What a write of `pc` can do. -/
theorem State.setPc_cases (s : State) (x : Int) :
    (∃ p : Word, (p.toNat : Int) = x ∧ s.setPc x = .ok { s with pc := p })
    ∨ ((x < 0 ∨ 0xFFFF < x) ∧ s.setPc x = .error (.pcRange x)) := by
  by_cases h : x < 0 ∨ 0xFFFF < x
  · exact .inr ⟨h, s.setPc_error x h⟩
  · have hp : ((BitVec.ofNat 16 x.toNat).toNat : Int) = x := by
      rw [BitVec.toNat_ofNat]; omega
    exact .inl ⟨_, hp, s.setPc_word _ x hp⟩

theorem State.setIndex_word (s : State) (p : Word) (x : Int) (h : (p.toNat : Int) = x) :
    s.setIndex x = .ok { s with index := p } := by
  subst h
  have := p.isLt
  simp only [State.setIndex]; rw [if_neg (by omega), ofInt_toNat_word]

theorem State.setIndex_error (s : State) (x : Int) (h : x < 0 ∨ 0xFFFF < x) :
    s.setIndex x = .error (.indexRange x) := by
  simp only [State.setIndex]; rw [if_pos (by omega)]

/-- What a write of `I` can do. -/
theorem State.setIndex_cases (s : State) (x : Int) :
    (∃ p : Word, (p.toNat : Int) = x ∧ s.setIndex x = .ok { s with index := p })
    ∨ ((x < 0 ∨ 0xFFFF < x) ∧ s.setIndex x = .error (.indexRange x)) := by
  by_cases h : x < 0 ∨ 0xFFFF < x
  · exact .inr ⟨h, s.setIndex_error x h⟩
  · have hp : ((BitVec.ofNat 16 x.toNat).toNat : Int) = x := by
      rw [BitVec.toNat_ofNat]; omega
    exact .inl ⟨_, hp, s.setIndex_word _ x hp⟩

/-! ### Memory accesses -/

theorem State.memRead_ok (s : State) (a : Nat) (h : a ≤ 4095) : s.memRead a = .ok (s.mem.read a) := by
  simp only [State.memRead]; rw [if_neg (by omega)]

theorem State.memRead_error (s : State) (a : Nat) (h : 4095 < a) : s.memRead a = .error (.memBounds a) := by
  simp only [State.memRead]; rw [if_pos h]

theorem State.memWrite_byte (s : State) (a : Nat) (b : Byte) (x : Int) (h : a ≤ 4095) (hx : (b.toNat : Int) = x) :
    s.memWrite a x = .ok { s with mem := s.mem.write a b } := by
  subst hx
  have := b.isLt
  simp only [State.memWrite]; rw [if_neg (by omega), if_neg (by omega), ofInt_toNat_byte]

theorem State.memWrite_bounds (s : State) (a : Nat) (x : Int) (h : 4095 < a) :
    s.memWrite a x = .error (.memBounds a) := by
  simp only [State.memWrite]; rw [if_pos h]

theorem State.memWrite_value (s : State) (a : Nat) (x : Int) (h : a ≤ 4095) (hx : x < 0 ∨ 255 < x) :
    s.memWrite a x = .error (.memValue a x) := by
  simp only [State.memWrite]; rw [if_neg (by omega), if_pos (by omega)]

/-- What a store of one byte can do. -/
theorem State.memWrite_cases (s : State) (a : Nat) (x : Int) :
    (∃ b : Byte, (b.toNat : Int) = x ∧ a ≤ 4095 ∧ s.memWrite a x = .ok { s with mem := s.mem.write a b })
    ∨ (4095 < a ∧ s.memWrite a x = .error (.memBounds a))
    ∨ (a ≤ 4095 ∧ (x < 0 ∨ 255 < x) ∧ s.memWrite a x = .error (.memValue a x)) := by
  by_cases ha : 4095 < a
  · exact .inr (.inl ⟨ha, s.memWrite_bounds a x ha⟩)
  · by_cases hx : x < 0 ∨ 255 < x
    · exact .inr (.inr ⟨by omega, hx, s.memWrite_value a x (by omega) hx⟩)
    · have hb : ((BitVec.ofNat 8 x.toNat).toNat : Int) = x := by
        rw [BitVec.toNat_ofNat]; omega
      exact .inl ⟨_, hb, by omega, s.memWrite_byte a _ x (by omega) hb⟩

/-! ### The call stack -/

theorem State.push_ok (s : State) (w : Word) (h : s.stack.length < 16) :
    s.push w = .ok { s with stack := s.stack ++ [w] } := by
  simp only [State.push]; rw [if_neg (by simpa [Config.stackDepth] using h)]

theorem State.push_error (s : State) (w : Word) (h : 16 ≤ s.stack.length) : s.push w = .error .stackOverflow := by
  simp only [State.push]; rw [if_pos (by simpa [Config.stackDepth] using h)]

theorem State.pop_error (s : State) (h : s.stack = []) : s.pop = .error .stackUnderflow := by
  simp [State.pop, h]

theorem State.pop_ok (s : State) (rest : List Word) (w : Word) (h : s.stack = rest ++ [w]) :
    s.pop = .ok (w, { s with stack := rest }) := by
  simp [State.pop, h]

/-! ### Skips -/

theorem State.skipIf_true (s : State) (h : s.pc.toNat + 2 ≤ 0xFFFF) : s.skipIf true = .ok { s with pc := s.pc + 2 } := by
  simp only [State.skipIf, if_true]
  refine s.setPc_word _ _ ?_
  rw [BitVec.toNat_add]
  have : (2 : Word).toNat = 2 := rfl
  omega

@[simp] theorem State.skipIf_false (s : State) : s.skipIf false = .ok s := rfl

/-! ### Fetch -/

theorem State.fetch_ok (s : State) (h : s.pc.toNat + 1 ≤ 4095) :
    s.fetch = .ok (s.mem.word s.pc.toNat, { s with pc := s.pc + 2 }) := by
  simp only [State.fetch]; rw [if_neg (by omega)]

theorem State.fetch_error (s : State) (h : 4095 < s.pc.toNat + 1) : s.fetch = .error (.fetchBounds s.pc) := by
  simp only [State.fetch]; rw [if_pos h]

end Sys2Proof.Machine
end

