-- ==== Sys2Proof/Laws/Exec.lean ====
section
/-! SUPPORT. What `exec` can do, said once for all instructions: a fault entry with no other change, or the effect of
the instruction's own shape (`Shape`). -/

namespace Sys2Proof.Machine

/-- The next state writes `V[x]`, with a value of the window, and nothing else. -/
abbrev Shape.reg (x : RegIdx) (s t : State) : Prop := ∃ a, s.inWindow a ∧ t = { s with v := s.v.set x.val a }

/-- The next state writes `V[x]`, then VF, each with a value of the window, and nothing else. -/
abbrev Shape.regFlag (x : RegIdx) (s t : State) : Prop :=
  ∃ a b, s.inWindow a ∧ s.inWindow b ∧ t = { s with v := (s.v.set x.val a).set 15 b }

/-- The next state writes `pc` and nothing else. -/
abbrev Shape.pc (s t : State) : Prop := ∃ p, t = { s with pc := p }

/-- The next state writes `I` and nothing else. -/
abbrev Shape.index (s t : State) : Prop := ∃ p, t = { s with index := p }

/-- The next state writes memory, canonically, and nothing else. -/
abbrev Shape.mem (s t : State) : Prop := ∃ m : Memory, (s.mem.wf = true → m.wf = true) ∧ t = { s with mem := m }

/-- The shape of each instruction's effect when it does not fault. -/
def Shape : Instr → State → State → Prop
  | .clearScreen, s, t => ∃ fb, t = { s with fb := fb }
  | .ret, s, t => ∃ rest p, s.stack = rest ++ [p] ∧ t = { s with pc := p, stack := rest }
  | .nop, s, t => t = s
  | .jump _, s, t | .jumpOffset _, s, t => Shape.pc s t
  | .call _, s, t => ∃ p, s.stack.length < 16 ∧ t = { s with pc := p, stack := s.stack ++ [s.pc] }
  | .skipCondEq _ _, s, t | .skipCondNEq _ _, s, t | .skipCondRegEq _ _, s, t | .skipCondRegNEq _ _, s, t
  | .skipIfPressed _, s, t | .skipIfNotPressed _, s, t => Shape.pc s t
  | .set x _, s, t | .add x _, s, t | .random x _, s, t => Shape.reg x s t
  | .setR x _, s, t | .binOr x _, s, t | .binAnd x _, s, t | .binXor x _, s, t => Shape.reg x s t
  | .addR x _, s, t | .sub12 x _, s, t | .sub21 x _, s, t => Shape.reg x s t
  | .shiftL x _, s, t | .shiftR x _, s, t => Shape.regFlag x s t
  | .setIndex _, s, t | .addToIndex _, s, t | .fontCharacter _, s, t => Shape.index s t
  | .display _ _ _, s, t => ∃ fb b, s.inWindow b ∧ t = { s with fb := fb, v := s.v.set 15 b }
  | .regFromDelayTimer x, s, t => Shape.reg x s t
  | .getPressedValue x, s, t => Shape.reg x s t ∨ Shape.pc s t
  | .delayTimerFromReg _, s, t => ∃ b, t = { s with dt := b }
  | .soundTimerFromReg _, s, t => ∃ b, t = { s with st := b }
  | .hexToDecimalToIndex _, s, t | .storeRegs _, s, t => Shape.mem s t
  | .loadRegs x, s, t =>
    t = { s with v := t.v } ∧ (∀ k, k ∉ regsUpTo x → t.reg k = s.reg k) ∧ ∀ k, t.reg k = s.reg k ∨ s.inWindow (t.reg k)

/-- A cause an instruction can raise after its fetch. -/
abbrev Cause.fromExec (c : Cause) : Prop := c.reachable = true ∧ c.code ≠ 1 ∧ c.code ≠ 2

/-- A result is a state that meets `P`, or a cause an instruction can raise. -/
abbrev Yields (P : State → Prop) (r : Except Cause State) : Prop :=
  (∃ t, P t ∧ r = .ok t) ∨ ∃ c : Cause, c.fromExec ∧ r = .error c

theorem yields_setReg (s : State) (x : RegIdx) (a : Int) : Yields (Shape.reg x s) (s.setReg x a) := by
  rcases s.setReg_cases x a with ⟨h, e⟩ | ⟨h, e⟩
  · exact .inl ⟨_, ⟨a, h, rfl⟩, e⟩
  · exact .inr ⟨_, by simp [Cause.fromExec, Cause.reachable, Cause.code], e⟩

theorem yields_setPc (s : State) (a : Int) : Yields (Shape.pc s) (s.setPc a) := by
  rcases s.setPc_cases a with ⟨p, _, e⟩ | ⟨_, e⟩
  · exact .inl ⟨_, ⟨p, rfl⟩, e⟩
  · exact .inr ⟨_, by simp [Cause.fromExec, Cause.reachable, Cause.code], e⟩

theorem yields_setIndex (s : State) (a : Int) : Yields (Shape.index s) (s.setIndex a) := by
  rcases s.setIndex_cases a with ⟨p, _, e⟩ | ⟨_, e⟩
  · exact .inl ⟨_, ⟨p, rfl⟩, e⟩
  · exact .inr ⟨_, by simp [Cause.fromExec, Cause.reachable, Cause.code], e⟩

theorem yields_memWrite (s : State) (a : Nat) (x : Int) : Yields (Shape.mem s) (s.memWrite a x) := by
  rcases s.memWrite_cases a x with ⟨b, _, ha, e⟩ | ⟨_, e⟩ | ⟨_, _, e⟩
  · exact .inl ⟨_, ⟨_, fun h => Memory.wf_write b h ha, rfl⟩, e⟩
  · exact .inr ⟨_, by simp [Cause.fromExec, Cause.reachable, Cause.code], e⟩
  · exact .inr ⟨_, by simp [Cause.fromExec, Cause.reachable, Cause.code], e⟩

theorem yields_skipIf (s : State) (b : Bool) : Yields (Shape.pc s) (s.skipIf b) := by
  cases b with
  | true => exact yields_setPc s _
  | false => exact .inl ⟨s, ⟨s.pc, rfl⟩, rfl⟩

/-- Two results in sequence. -/
theorem yields_bind {P Q : State → Prop} {r : Except Cause State} {f : State → Except Cause State}
    (h : Yields P r) (hf : ∀ t, P t → Yields Q (f t)) : Yields Q (r >>= f) := by
  rcases h with ⟨t, ht, rfl⟩ | ⟨c, hc, rfl⟩
  · exact hf t ht
  · exact .inr ⟨c, hc, rfl⟩

theorem Shape.mem_trans {s t u : State} (h : Shape.mem s t) (h' : Shape.mem t u) : Shape.mem s u := by
  obtain ⟨m, hm, rfl⟩ := h
  obtain ⟨m', hm', rfl⟩ := h'
  exact ⟨m', fun h => hm' (hm h), rfl⟩

theorem yields_storeEach : ∀ (ks : List RegIdx) (s : State), Yields (Shape.mem s) (s.storeEach ks)
  | [], s => .inl ⟨s, ⟨s.mem, id, rfl⟩, rfl⟩
  | k :: ks, s => yields_bind (yields_memWrite s _ _) fun t ht => by
      rcases yields_storeEach ks t with ⟨u, hu, e⟩ | h
      · exact .inl ⟨u, Shape.mem_trans ht hu, e⟩
      · exact .inr h

/-- What a run of register loads leaves. -/
abbrev Shape.loads (ks : List RegIdx) (s t : State) : Prop :=
  t = { s with v := t.v } ∧ (∀ k, k ∉ ks → t.reg k = s.reg k) ∧ ∀ k, t.reg k = s.reg k ∨ s.inWindow (t.reg k)

theorem yields_loadEach : ∀ (ks : List RegIdx) (s : State), Yields (Shape.loads ks s) (s.loadEach ks)
  | [], s => .inl ⟨s, ⟨rfl, fun _ _ => rfl, fun _ => .inl rfl⟩, rfl⟩
  | k :: ks, s => by
    simp only [State.loadEach]
    by_cases ha : s.indexed k.val ≤ 4095
    · rw [s.memRead_ok _ ha]
      refine yields_bind (yields_setReg s k _) ?_
      rintro t ⟨a, hw, rfl⟩
      rcases yields_loadEach ks { s with v := s.v.set k.val a } with ⟨u, ⟨hu, hf, hi⟩, e⟩ | h
      · refine .inl ⟨u, ⟨by rw [hu], fun j hj => ?_, fun j => ?_⟩, e⟩
        · rw [hf j (fun h => hj (List.mem_cons_of_mem _ h))]
          have : k.val ≠ j.val := fun h => hj (by rw [Fin.ext h]; exact List.mem_cons_self)
          simp [State.reg, this]
        · rcases hi j with h | h
          · by_cases hkj : k.val = j.val
            · exact .inr (by rw [h]; simpa [State.reg, Vector.getElem_set, hkj] using hw)
            · exact .inl (by rw [h]; simp [State.reg, hkj])
          · exact .inr h
      · exact .inr h
    · rw [s.memRead_error _ (by omega)]
      exact .inr ⟨_, by simp [Cause.fromExec, Cause.reachable, Cause.code], rfl⟩

theorem yields_keyState (s : State) (v : Int) (f : Bool → Except Cause State) (P : State → Prop)
    (hf : ∀ b, Yields P (f b)) : Yields P (s.keyState v >>= f) := by
  simp only [State.keyState]
  split
  · exact .inr ⟨_, by simp [Cause.fromExec, Cause.reachable, Cause.code], rfl⟩
  · exact hf _

theorem yields_timerByte (v : Int) (f : Byte → Except Cause State) (P : State → Prop) (hf : ∀ b, Yields P (f b)) :
    Yields P (timerByte v >>= f) := by
  simp only [timerByte]
  split
  · exact .inr ⟨_, by simp [Cause.fromExec, Cause.reachable, Cause.code], rfl⟩
  · exact hf _

theorem yields_readRows (f : List Byte → Except Cause State) (P : State → Prop) (s : State) :
    ∀ (n addr : Nat) (_ : ∀ rows, Yields P (f rows)), Yields P (s.readRows addr n >>= f)
  | 0, _, hf => hf []
  | n + 1, addr, hf => by
    simp only [State.readRows]
    by_cases ha : addr ≤ 4095
    · rw [s.memRead_ok _ ha]
      have := yields_readRows (fun bs => f (s.mem.read addr :: bs)) P s n (addr + 1) fun _ => hf _
      cases h : s.readRows (addr + 1) n with
      | ok rows => rw [h] at this; exact this
      | error c => rw [h] at this; exact this
    · rw [s.memRead_error _ (by omega)]
      exact .inr ⟨_, by simp [Cause.fromExec, Cause.reachable, Cause.code], rfl⟩

theorem yields_shift (s : State) (x : RegIdx) (a b : Int) :
    Yields (Shape.regFlag x s) (s.setReg x a >>= fun t => t.setReg vf b) := by
  refine yields_bind (yields_setReg s x a) ?_
  rintro t ⟨a, ha, rfl⟩
  rcases yields_setReg { s with v := s.v.set x.val a } vf b with ⟨u, ⟨b, hb, rfl⟩, e⟩ | h
  · exact .inl ⟨_, ⟨a, b, ha, hb, rfl⟩, e⟩
  · exact .inr h

/-- A result that meets the shape completes in a state of the shape, or takes the fault entry. -/
theorem complete_yields {P : State → Prop} {s t : State} {r : Except Cause State} (hr : Yields P r)
    (h : s.complete r = .next t) : P t ∨ ∃ c : Cause, c.fromExec ∧ t = s.raise c (some s.opcode) := by
  rcases hr with ⟨u, hu, rfl⟩ | ⟨c, hc, rfl⟩
  · left; simp only [State.complete_ok, Host.Outcome.next.injEq] at h; exact h ▸ hu
  · right; exact ⟨c, hc, by simpa using h.symm⟩

/-- All that an instruction can do: the effect of its shape, or a fault entry that changes nothing else. -/
theorem exec_cases {i : Instr} {s t : State} (h : exec i s = .next t) :
    Shape i s t ∨ ∃ c : Cause, c.fromExec ∧ t = s.raise c (some s.opcode) := by
  cases i <;> refine complete_yields ?_ h
  case clearScreen => exact .inl ⟨_, ⟨_, rfl⟩, rfl⟩
  case ret =>
    rcases List.eq_nil_or_concat s.stack with h | ⟨rest, p, h⟩
    · rw [s.pop_error h]; exact .inr ⟨_, by simp [Cause.fromExec, Cause.reachable, Cause.code], rfl⟩
    · rw [List.concat_eq_append] at h
      rw [s.pop_ok rest p h]
      exact .inl ⟨_, ⟨rest, p, h, rfl⟩, State.setPc_word _ p _ rfl⟩
  case nop => exact .inl ⟨s, rfl, rfl⟩
  case jump => exact yields_setPc s _
  case jumpOffset => exact yields_setPc s _
  case call addr =>
    by_cases hl : s.stack.length < 16
    · rw [s.push_ok s.pc hl]
      rcases yields_setPc { s with stack := s.stack ++ [s.pc] } (addr : Int) with ⟨t, ⟨p, rfl⟩, e⟩ | h
      · exact .inl ⟨_, ⟨p, hl, rfl⟩, e⟩
      · exact .inr h
    · rw [s.push_error s.pc (by omega)]; exact .inr ⟨_, by simp [Cause.fromExec, Cause.reachable, Cause.code], rfl⟩
  case skipCondEq => exact yields_skipIf s _
  case skipCondNEq => exact yields_skipIf s _
  case skipCondRegEq => exact yields_skipIf s _
  case skipCondRegNEq => exact yields_skipIf s _
  case skipIfPressed => exact yields_keyState s _ _ _ fun _ => yields_skipIf s _
  case skipIfNotPressed => exact yields_keyState s _ _ _ fun _ => yields_skipIf s _
  case set => exact yields_setReg s _ _
  case add => exact yields_setReg s _ _
  case random => exact yields_setReg s _ _
  case setR => exact yields_setReg s _ _
  case binOr => exact yields_setReg s _ _
  case binAnd => exact yields_setReg s _ _
  case binXor => exact yields_setReg s _ _
  case addR => exact yields_setReg s _ _
  case sub12 => exact yields_setReg s _ _
  case sub21 => exact yields_setReg s _ _
  case shiftL => exact yields_shift s _ _ _
  case shiftR => exact yields_shift s _ _ _
  case setIndex => exact yields_setIndex s _
  case addToIndex => exact yields_setIndex s _
  case fontCharacter =>
    split
    · exact .inr ⟨_, by simp [Cause.fromExec, Cause.reachable, Cause.code], rfl⟩
    · exact yields_setIndex s _
  case display x y n =>
    refine yields_readRows _ _ s _ _ fun rows => ?_
    rcases yields_setReg { s with fb := (drawRows (startColumn (s.reg x)) (startRow (s.reg y)) rows (s.fb, false)).1 } vf
      (collisionFlag (drawRows (startColumn (s.reg x)) (startRow (s.reg y)) rows (s.fb, false)).2) with
      ⟨t, ⟨b, hb, rfl⟩, e⟩ | h
    · exact .inl ⟨_, ⟨_, b, hb, rfl⟩, e⟩
    · exact .inr h
  case regFromDelayTimer => exact yields_setReg s _ _
  case getPressedValue =>
    split
    · rcases yields_setReg s _ _ with ⟨t, ht, e⟩ | h
      · exact .inl ⟨t, .inl ht, e⟩
      · exact .inr h
    · rcases yields_setPc s _ with ⟨t, ht, e⟩ | h
      · exact .inl ⟨t, .inr ht, e⟩
      · exact .inr h
  case delayTimerFromReg => exact yields_timerByte _ _ _ fun b => .inl ⟨_, ⟨b, rfl⟩, rfl⟩
  case soundTimerFromReg => exact yields_timerByte _ _ _ fun b => .inl ⟨_, ⟨b, rfl⟩, rfl⟩
  case hexToDecimalToIndex =>
    split
    · exact .inr ⟨_, by simp [Cause.fromExec, Cause.reachable, Cause.code], rfl⟩
    · refine yields_bind (yields_memWrite s _ _) fun t ht => yields_bind (P := Shape.mem s) ?_ fun u hu => ?_
      · rcases yields_memWrite t (s.indexed 1) _ with ⟨u, hu, e⟩ | h
        · exact .inl ⟨u, Shape.mem_trans ht hu, e⟩
        · exact .inr h
      · rcases yields_memWrite u (s.indexed 2) _ with ⟨w, hw, e⟩ | h
        · exact .inl ⟨w, Shape.mem_trans hu hw, e⟩
        · exact .inr h
  case storeRegs => exact yields_storeEach _ s
  case loadRegs => exact yields_loadEach _ s

end Sys2Proof.Machine
end

