-- ==== Sys2Proof/Laws/Framebuffer.lean ====
section
/-! SUPPORT. Pixels: reading the pixel just set, or another one, and the cleared framebuffer. -/

namespace Sys2Proof.Machine

/-- Outside the grid no pixel is lit. -/
theorem Framebuffer.pixel_outside (fb : Framebuffer) {x y : Nat} (h : ¬ (y < 32 ∧ x < 64)) :
    Framebuffer.pixel fb x y = false := by
  simp only [Framebuffer.pixel]; rw [dif_neg h]

/-- Reading the pixel just set, or another one (10_state R32). -/
theorem Framebuffer.pixel_setPixel (fb : Framebuffer) {x y : Nat} (hx : x < 64) (hy : y < 32) (lit : Bool) (a b : Nat) :
    Framebuffer.pixel (Framebuffer.setPixel fb x y lit) a b =
      if a = x ∧ b = y then lit else Framebuffer.pixel fb a b := by
  by_cases h : b < 32 ∧ a < 64
  · simp only [Framebuffer.pixel, Framebuffer.setPixel, dif_pos (And.intro hy hx), dif_pos h, Vector.getElem_set]
    by_cases hb : y = b
    · subst hb
      simp only [if_true, Vector.getElem_set, eq_comm (a := a)]
      by_cases ha : x = a <;> simp [ha]
    · simp [hb, eq_comm (a := b)]
  · rw [Framebuffer.pixel_outside _ h, Framebuffer.pixel_outside _ h, if_neg (by omega)]

/-- Every pixel of the cleared framebuffer is unlit. -/
theorem Framebuffer.pixel_cleared (x y : Nat) :
    Framebuffer.pixel (Vector.replicate 32 (Vector.replicate 64 false)) x y = false := by
  simp only [Framebuffer.pixel]; split <;> simp

end Sys2Proof.Machine
end

