-- ==== Sys2Proof/Laws/PerInstr.lean ====
section
/-! SUPPORT. The statements made per instruction. OpcodeRow: the word of a well-formed instruction has the fixed bits of
its row of the opcode table. -/

namespace Sys2Proof.Laws.OpcodeRow

/-- The encoded word, under the row's mask, is the row's value. -/
def Statement (i : Instr) : Prop := i.wellFormed = true → encode i &&& i.row.mask = i.row.value

theorem clearScreen : Statement .clearScreen := fun _ => rfl
theorem ret : Statement .ret := fun _ => rfl
theorem nop : Statement .nop := fun _ => rfl
theorem jump (addr : Nat) : Statement (.jump addr) := fun h => by
  simp only [encode, Instr.row]
  exact wordNNN_mask (by decide) (by simpa [Instr.wellFormed] using h) 0x1000 (by decide)
theorem call (addr : Nat) : Statement (.call addr) := fun h => by
  simp only [encode, Instr.row]
  exact wordNNN_mask (by decide) (by simpa [Instr.wellFormed] using h) 0x2000 (by decide)
theorem skipCondEq (reg : RegIdx) (imm : Nat) : Statement (.skipCondEq reg imm) := fun h => by
  simp only [encode, Instr.row]
  exact wordXKK_mask reg (by decide) (by simpa [Instr.wellFormed] using h) 0x3000 (by decide)
theorem skipCondNEq (reg : RegIdx) (imm : Nat) : Statement (.skipCondNEq reg imm) := fun h => by
  simp only [encode, Instr.row]
  exact wordXKK_mask reg (by decide) (by simpa [Instr.wellFormed] using h) 0x4000 (by decide)
theorem skipCondRegEq (reg1 reg2 : RegIdx) : Statement (.skipCondRegEq reg1 reg2) := fun _ => by
  simp only [encode, Instr.row]
  exact wordXYN_mask reg1 reg2 (by decide) (by decide) 0x5000 (by decide)
theorem set (reg : RegIdx) (imm : Nat) : Statement (.set reg imm) := fun h => by
  simp only [encode, Instr.row]
  exact wordXKK_mask reg (by decide) (by simpa [Instr.wellFormed] using h) 0x6000 (by decide)
theorem add (reg : RegIdx) (imm : Nat) : Statement (.add reg imm) := fun h => by
  simp only [encode, Instr.row]
  exact wordXKK_mask reg (by decide) (by simpa [Instr.wellFormed] using h) 0x7000 (by decide)
theorem setR (reg1 reg2 : RegIdx) : Statement (.setR reg1 reg2) := fun _ => by
  simp only [encode, Instr.row]
  exact wordXYN_mask_low reg1 reg2 (by decide) (by decide) 0x8000 (by decide)
theorem binOr (reg1 reg2 : RegIdx) : Statement (.binOr reg1 reg2) := fun _ => by
  simp only [encode, Instr.row]
  exact wordXYN_mask_low reg1 reg2 (by decide) (by decide) 0x8001 (by decide)
theorem binAnd (reg1 reg2 : RegIdx) : Statement (.binAnd reg1 reg2) := fun _ => by
  simp only [encode, Instr.row]
  exact wordXYN_mask_low reg1 reg2 (by decide) (by decide) 0x8002 (by decide)
theorem binXor (reg1 reg2 : RegIdx) : Statement (.binXor reg1 reg2) := fun _ => by
  simp only [encode, Instr.row]
  exact wordXYN_mask_low reg1 reg2 (by decide) (by decide) 0x8003 (by decide)
theorem addR (reg1 reg2 : RegIdx) : Statement (.addR reg1 reg2) := fun _ => by
  simp only [encode, Instr.row]
  exact wordXYN_mask_low reg1 reg2 (by decide) (by decide) 0x8004 (by decide)
theorem sub12 (reg1 reg2 : RegIdx) : Statement (.sub12 reg1 reg2) := fun _ => by
  simp only [encode, Instr.row]
  exact wordXYN_mask_low reg1 reg2 (by decide) (by decide) 0x8005 (by decide)
theorem shiftL (reg1 reg2 : RegIdx) : Statement (.shiftL reg1 reg2) := fun _ => by
  simp only [encode, Instr.row]
  exact wordXYN_mask_low reg1 reg2 (by decide) (by decide) 0x8006 (by decide)
theorem sub21 (reg1 reg2 : RegIdx) : Statement (.sub21 reg1 reg2) := fun _ => by
  simp only [encode, Instr.row]
  exact wordXYN_mask_low reg1 reg2 (by decide) (by decide) 0x8007 (by decide)
theorem shiftR (reg1 reg2 : RegIdx) : Statement (.shiftR reg1 reg2) := fun _ => by
  simp only [encode, Instr.row]
  exact wordXYN_mask_low reg1 reg2 (by decide) (by decide) 0x800E (by decide)
theorem skipCondRegNEq (reg1 reg2 : RegIdx) : Statement (.skipCondRegNEq reg1 reg2) := fun _ => by
  simp only [encode, Instr.row]
  exact wordXYN_mask reg1 reg2 (by decide) (by decide) 0x9000 (by decide)
theorem setIndex (addr : Nat) : Statement (.setIndex addr) := fun h => by
  simp only [encode, Instr.row]
  exact wordNNN_mask (by decide) (by simpa [Instr.wellFormed] using h) 0xA000 (by decide)
theorem jumpOffset (addr : Nat) : Statement (.jumpOffset addr) := fun h => by
  simp only [encode, Instr.row]
  exact wordNNN_mask (by decide) (by simpa [Instr.wellFormed] using h) 0xB000 (by decide)
theorem random (reg : RegIdx) (imm : Nat) : Statement (.random reg imm) := fun h => by
  simp only [encode, Instr.row]
  exact wordXKK_mask reg (by decide) (by simpa [Instr.wellFormed] using h) 0xC000 (by decide)
theorem display (regX regY : RegIdx) (height : Nat) : Statement (.display regX regY height) := fun h => by
  simp only [encode, Instr.row]
  exact wordXYN_mask regX regY (by decide) (by simpa [Instr.wellFormed] using h) 0xD000 (by decide)
theorem skipIfPressed (reg : RegIdx) : Statement (.skipIfPressed reg) := fun _ => by
  simp only [encode, Instr.row]
  exact wordXKK_mask_low reg (by decide) (by decide) 0xE09E (by decide)
theorem skipIfNotPressed (reg : RegIdx) : Statement (.skipIfNotPressed reg) := fun _ => by
  simp only [encode, Instr.row]
  exact wordXKK_mask_low reg (by decide) (by decide) 0xE0A1 (by decide)
theorem regFromDelayTimer (reg : RegIdx) : Statement (.regFromDelayTimer reg) := fun _ => by
  simp only [encode, Instr.row]
  exact wordXKK_mask_low reg (by decide) (by decide) 0xF007 (by decide)
theorem getPressedValue (reg : RegIdx) : Statement (.getPressedValue reg) := fun _ => by
  simp only [encode, Instr.row]
  exact wordXKK_mask_low reg (by decide) (by decide) 0xF00A (by decide)
theorem delayTimerFromReg (reg : RegIdx) : Statement (.delayTimerFromReg reg) := fun _ => by
  simp only [encode, Instr.row]
  exact wordXKK_mask_low reg (by decide) (by decide) 0xF015 (by decide)
theorem soundTimerFromReg (reg : RegIdx) : Statement (.soundTimerFromReg reg) := fun _ => by
  simp only [encode, Instr.row]
  exact wordXKK_mask_low reg (by decide) (by decide) 0xF018 (by decide)
theorem addToIndex (reg : RegIdx) : Statement (.addToIndex reg) := fun _ => by
  simp only [encode, Instr.row]
  exact wordXKK_mask_low reg (by decide) (by decide) 0xF01E (by decide)
theorem fontCharacter (reg : RegIdx) : Statement (.fontCharacter reg) := fun _ => by
  simp only [encode, Instr.row]
  exact wordXKK_mask_low reg (by decide) (by decide) 0xF029 (by decide)
theorem hexToDecimalToIndex (reg : RegIdx) : Statement (.hexToDecimalToIndex reg) := fun _ => by
  simp only [encode, Instr.row]
  exact wordXKK_mask_low reg (by decide) (by decide) 0xF033 (by decide)
theorem storeRegs (reg : RegIdx) : Statement (.storeRegs reg) := fun _ => by
  simp only [encode, Instr.row]
  exact wordXKK_mask_low reg (by decide) (by decide) 0xF055 (by decide)
theorem loadRegs (reg : RegIdx) : Statement (.loadRegs reg) := fun _ => by
  simp only [encode, Instr.row]
  exact wordXKK_mask_low reg (by decide) (by decide) 0xF065 (by decide)

end Sys2Proof.Laws.OpcodeRow
end

