-- ==== Sys2Proof/Tests/Slice0.lean ====
section
/-! SUPPORT. The model's own tests. Each expected result is taken from spec/95_test_vectors.md (its vector is named) or,
where no vector fits, from the pseudocode of the rule named. -/

namespace Sys2Proof.Tests

open Sys2Proof.Machine

/-- A field of the next state. -/
def after {α : Type} (o : Host.Outcome State Fault Refusal) (f : State → α) : Option α :=
  match o with
  | .next t => some (f t)
  | .fault _ => none
  | .refused _ => none

/-- A cycle's hand-off with no timer move, the keys listed, and a draw. -/
def handOff (pressed : List Nat) (draw : Draw) : CycleInput :=
  { moves := [], keys := pressed.foldl (fun keys k => keys.setIfInBounds k true) (Vector.replicate 16 false), draw := draw }

/-- The reset state with a word at `pc` and a hand-off for one cycle. -/
def start (op : Nat) (input : CycleInput := handOff [] 0) : State :=
  { State.reset.withFetchWord 16 op with script := [input] }

/-- A state with registers set. -/
def withRegs (s : State) : List (RegIdx × Int) → State
  | [] => s
  | (k, value) :: rest => withRegs { s with v := s.v.set k.val value } rest

/-- A state with bytes stored from an address on. -/
def withBytes (s : State) (addr : Nat) (bytes : List Byte) : State := { s with mem := s.mem.writeFrom addr bytes }

/-- What a fault test looks at: the record's cause and `pc`, and the number of the cause. -/
def faultOf (s : State) : Option (Cause × Option Word × Word) := s.halted.map (fun r => (r.cause, r.opcode, r.pc))

/-! ### Well-formedness: an ill-formed term for each check -/

theorem test_wellFormed_refuses_long_addr :
    (Instr.jump 0x1000).wellFormed = false ∧ (Instr.call 0x1000).wellFormed = false
    ∧ (Instr.setIndex 0x1000).wellFormed = false ∧ (Instr.jumpOffset 0x1000).wellFormed = false := by decide

theorem test_wellFormed_refuses_long_imm :
    (Instr.skipCondEq 0 0x100).wellFormed = false ∧ (Instr.skipCondNEq 0 0x100).wellFormed = false
    ∧ (Instr.set 0 0x100).wellFormed = false ∧ (Instr.add 0 0x100).wellFormed = false
    ∧ (Instr.random 0 0x100).wellFormed = false := by decide

theorem test_wellFormed_refuses_tall_display : (Instr.display 0 0 16).wellFormed = false := by decide

/-! ### Decoding: one word per variant (95 section 2.1, 30_encoding R86) and the illegal words -/

theorem test_decode_control :
    decodeWord 0x00EE = some .ret ∧ decodeWord 0x0123 = some .nop ∧ decodeWord 0x1ABC = some (.jump 0xABC)
    ∧ decodeWord 0x2ABC = some (.call 0xABC) ∧ decodeWord 0x3A42 = some (.skipCondEq 0xA 0x42)
    ∧ decodeWord 0x4A42 = some (.skipCondNEq 0xA 0x42) ∧ decodeWord 0x5AB7 = some (.skipCondRegEq 0xA 0xB)
    ∧ decodeWord 0x9ABF = some (.skipCondRegNEq 0xA 0xB) ∧ decodeWord 0xB123 = some (.jumpOffset 0x123) := by decide

theorem test_decode_alu :
    decodeWord 0x6A3F = some (.set 0xA 0x3F) ∧ decodeWord 0x7A01 = some (.add 0xA 0x01)
    ∧ decodeWord 0x8AB0 = some (.setR 0xA 0xB) ∧ decodeWord 0x8AB1 = some (.binOr 0xA 0xB)
    ∧ decodeWord 0x8AB2 = some (.binAnd 0xA 0xB) ∧ decodeWord 0x8AB3 = some (.binXor 0xA 0xB)
    ∧ decodeWord 0x8AB4 = some (.addR 0xA 0xB) ∧ decodeWord 0x8AB5 = some (.sub12 0xA 0xB)
    ∧ decodeWord 0x8AB6 = some (.shiftL 0xA 0xB) ∧ decodeWord 0x8AB7 = some (.sub21 0xA 0xB)
    ∧ decodeWord 0x8ABE = some (.shiftR 0xA 0xB) ∧ decodeWord 0xCA0F = some (.random 0xA 0x0F) := by decide

theorem test_decode_index_and_display :
    decodeWord 0xA123 = some (.setIndex 0x123) ∧ decodeWord 0xFA1E = some (.addToIndex 0xA)
    ∧ decodeWord 0xFA29 = some (.fontCharacter 0xA) ∧ decodeWord 0xFA33 = some (.hexToDecimalToIndex 0xA)
    ∧ decodeWord 0xFA55 = some (.storeRegs 0xA) ∧ decodeWord 0xFA65 = some (.loadRegs 0xA)
    ∧ decodeWord 0x00E0 = some .clearScreen ∧ decodeWord 0xD123 = some (.display 1 2 3) := by decide

theorem test_decode_keys_and_timers :
    decodeWord 0xEA9E = some (.skipIfPressed 0xA) ∧ decodeWord 0xEAA1 = some (.skipIfNotPressed 0xA)
    ∧ decodeWord 0xFA07 = some (.regFromDelayTimer 0xA) ∧ decodeWord 0xFA0A = some (.getPressedValue 0xA)
    ∧ decodeWord 0xFA15 = some (.delayTimerFromReg 0xA) ∧ decodeWord 0xFA18 = some (.soundTimerFromReg 0xA) := by decide

theorem test_decode_refuses_illegal :
    ([0x8AB8, 0x8AB9, 0x8ABA, 0x8ABB, 0x8ABC, 0x8ABD, 0x8ABF, 0xE000, 0xEA9F, 0xEAA0, 0xEAFF, 0xF000, 0xFA08, 0xFA16,
      0xFA1F, 0xFA30, 0xFA56, 0xFA66, 0xFAFF] : List Word).all (fun op => (decodeWord op).isNone) = true := by decide

theorem test_decode_bytes_big_endian :
    decode [0x6A, 0x3F, 0x12] = .ok (.set 0xA 0x3F, [0x12]) ∧ decode [0x80] = .error .tooShort
    ∧ decode [0x80, 0x08] = .error (.illegal 0x8008) := by decide

/-! ### One step of each instruction -/

/-- T1, T2. -/
theorem test_nop_advances : after (step (start 0x00FF)) (fun t => (t.pc, t.halted)) = some (0x202, none) := by decide

/-- T10. -/
theorem test_return_pops_last_pushed :
    after (step { start 0x00EE with stack := [0x202, 0x404] }) (fun t => (t.pc, t.stack)) = some (0x404, [0x202]) := by
  decide

/-- S6. -/
theorem test_return_underflow :
    after (step (start 0x00EE)) faultOf = some (some (.stackUnderflow, some 0x00EE, 0x202)) := by decide

/-- T6. -/
theorem test_jump_odd : after (step (start 0x1301)) (fun t => t.pc) = some 0x301 := by decide

/-- S4. -/
theorem test_call_pushes_post_fetch :
    after (step (start 0x2300)) (fun t => (t.pc, t.stack)) = some (0x300, [0x202]) := by decide

/-- T9. -/
theorem test_call_overflow :
    after (step { start 0x2300 with stack := List.replicate 16 0x202 }) (fun t => (faultOf t, t.pc, t.stack.length))
      = some (some (.stackOverflow, some 0x2300, 0x202), 0x202, 16) := by decide

/-- T17, T13. -/
theorem test_jumpOffset_uses_v0 :
    after (step (withRegs (start 0xB100) [(0, 0x100), (1, 7)])) (fun t => t.pc) = some 0x200 := by decide

/-- T14. -/
theorem test_jumpOffset_negative_target :
    after (step (withRegs (start 0xB010) [(0, -0x20)])) (fun t => (faultOf t, t.pc))
      = some (some (.pcRange (-16), some 0xB010, 0x202), 0x202) := by decide

/-- T18. -/
theorem test_skipCondEq_skips : after (step (withRegs (start 0x332A) [(3, 0x2A)])) (fun t => t.pc) = some 0x204 := by
  decide

/-- T20. -/
theorem test_skipCondEq_full_value :
    after (step (withRegs (start 0x332A) [(3, 0x12A)])) (fun t => t.pc) = some 0x202 := by decide

/-- T23. -/
theorem test_skipCondNEq_full_value :
    after (step (withRegs (start 0x432A) [(3, 0x12A)])) (fun t => t.pc) = some 0x204 := by decide

/-- T25. -/
theorem test_skipCondRegEq_ignores_nibble :
    after (step (withRegs (start 0x501F) [(0, 5), (1, 5)])) (fun t => t.pc) = some 0x204 := by decide

/-- T28. -/
theorem test_skipCondRegNEq_skips :
    after (step (withRegs (start 0x9010) [(0, 4), (1, 5)])) (fun t => t.pc) = some 0x204 := by decide

/-- T29. -/
theorem test_skipCondRegNEq_same_register : after (step (start 0x9773)) (fun t => t.pc) = some 0x202 := by decide

/-- A2. -/
theorem test_set_zero_extends : after (step (start 0x60FF)) (fun t => t.reg 0) = some 255 := by decide

/-- A4. -/
theorem test_add_no_wrap :
    after (step (withRegs (start 0x7001) [(0, 0xFF)])) (fun t => (t.reg 0, t.reg vf)) = some (0x100, 0) := by decide

/-- A5. -/
theorem test_add_range :
    after (step (withRegs (start 0x7001) [(0, 32767)])) (fun t => (faultOf t, t.reg 0))
      = some (some (.regRange 0 32768, some 0x7001, 0x202), 32767) := by decide

/-- A7. -/
theorem test_setR_copies : after (step (withRegs (start 0x8120) [(2, 0x1234)])) (fun t => t.reg 1) = some 0x1234 := by
  decide

/-- A9, A15. -/
theorem test_binOr_negative :
    after (step (withRegs (start 0x8121) [(1, -2), (2, 1), (15, 1)])) (fun t => (t.reg 1, t.reg vf)) = some (-1, 1) := by
  decide

/-- A11. -/
theorem test_binAnd_minus_one :
    after (step (withRegs (start 0x8122) [(1, 0x3C), (2, -1)])) (fun t => t.reg 1) = some 0x3C := by decide

/-- A13. -/
theorem test_binXor_minus_one :
    after (step (withRegs (start 0x8123) [(1, 0x3C), (2, -1)])) (fun t => t.reg 1) = some (-61) := by decide

/-- A16. -/
theorem test_addR_no_carry :
    after (step (withRegs (start 0x8124) [(1, 0xFF), (2, 1), (15, 7)])) (fun t => (t.reg 1, t.reg vf))
      = some (0x100, 7) := by decide

/-- A17. -/
theorem test_addR_range :
    after (step (withRegs (start 0x8124) [(1, 20000), (2, 20000)])) (fun t => (t.reg 1, faultOf t))
      = some (20000, some (.regRange 1 40000, some 0x8124, 0x202)) := by decide

/-- A18. -/
theorem test_sub12_negative :
    after (step (withRegs (start 0x8125) [(1, 0x10), (2, 0x30), (15, 7)])) (fun t => (t.reg 1, t.reg vf))
      = some (-32, 7) := by decide

/-- A22. -/
theorem test_sub21_is_zero :
    after (step (withRegs (start 0x8127) [(1, -7), (2, 12345)])) (fun t => (t.reg 1, t.reg 2)) = some (0, 12345) := by
  decide

/-- A24, A27. -/
theorem test_shiftL_negative :
    after (step (withRegs (start 0x8176) [(1, -3), (7, 99)])) (fun t => (t.reg 1, t.reg vf, t.reg 7))
      = some (-6, 1, 99) := by decide

/-- A28. -/
theorem test_shiftL_flag_last : after (step (withRegs (start 0x8F06) [(15, -1)])) (fun t => t.reg vf) = some 1 := by
  decide

/-- A33. -/
theorem test_shiftR_floor :
    after (step (withRegs (start 0x810E) [(1, -3)])) (fun t => (t.reg 1, t.reg vf)) = some (-2, 1) := by decide

/-- A35. -/
theorem test_shiftR_flag_last : after (step (withRegs (start 0x8F0E) [(15, 6)])) (fun t => t.reg vf) = some 0 := by
  decide

/-- A36. -/
theorem test_random_masks_draw : after (step (start 0xC10F (handOff [] 1000))) (fun t => t.reg 1) = some 8 := by decide

/-- A38. -/
theorem test_random_full_mask : after (step (start 0xC1FF (handOff [] 1000))) (fun t => t.reg 1) = some 0xE8 := by decide

/-- X2. -/
theorem test_setIndex : after (step (start 0xAFFF)) (fun t => t.index) = some 0xFFF := by decide

/-- X5, X3. -/
theorem test_addToIndex_past_memory :
    after (step (withRegs { start 0xF21E with index := 0xFF0 } [(2, 0x20), (15, 5)])) (fun t => (t.index, t.reg vf))
      = some (0x1010, 5) := by decide

/-- X7. -/
theorem test_addToIndex_negative_sum :
    after (step (withRegs { start 0xF21E with index := 0x10 } [(2, -0x11)])) (fun t => (faultOf t, t.index))
      = some (some (.indexRange (-1), some 0xF21E, 0x202), 0x10) := by decide

/-- X9. -/
theorem test_fontCharacter_last : after (step (withRegs (start 0xF029) [(0, 0xF)])) (fun t => t.index) = some 0x9B := by
  decide

/-- X10. -/
theorem test_fontCharacter_not_masked :
    after (step (withRegs (start 0xF029) [(0, 0x1A)])) (fun t => (faultOf t, t.index))
      = some (some (.fontRange 0x1A, some 0xF029, 0x202), 0) := by decide

/-- S10. -/
theorem test_bcd_157 :
    after (step (withRegs { start 0xF033 with index := 0x300 } [(0, 157)]))
        (fun t => (t.mem.read 0x300, t.mem.read 0x301, t.mem.read 0x302, t.index)) = some (1, 5, 7, 0x300) := by decide

/-- X24. -/
theorem test_bcd_atomic :
    after (step (withRegs { start 0xF033 with index := 0xFFE } [(0, 157)])) (fun t => (faultOf t, t.mem.read 0xFFE))
      = some (some (.memBounds 0x1000, some 0xF033, 0x202), 0) := by decide

/-- The example of 42_index_memory R145, and X14. -/
theorem test_storeRegs_inclusive :
    after (step (withRegs { start 0xF255 with index := 0x300 } [(0, 1), (1, 2), (2, 3), (3, 9)]))
        (fun t => (t.mem.read 0x300, t.mem.read 0x302, t.mem.read 0x303, t.index)) = some (1, 3, 0, 0x300) := by decide

/-- X12. -/
theorem test_storeRegs_atomic :
    after (step (withRegs { start 0xF155 with index := 0x300 } [(0, 1), (1, 0x100)]))
        (fun t => (faultOf t, t.mem.read 0x300))
      = some (some (.memValue 0x301 0x100, some 0xF155, 0x202), 0) := by decide

/-- X17. -/
theorem test_loadRegs_zero_extends :
    after (step (withRegs (withBytes { start 0xF065 with index := 0x300 } 0x300 [0xFF, 0x11]) [(0, -9), (1, 4)]))
        (fun t => (t.reg 0, t.reg 1)) = some (255, 4) := by decide

/-- X18. -/
theorem test_loadRegs_atomic :
    after (step (withRegs { start 0xF165 with index := 0xFFF } [(0, 5)])) (fun t => (faultOf t, t.reg 0))
      = some (some (.memBounds 0x1000, some 0xF165, 0x202), 5) := by decide

/-- G13. -/
theorem test_clearScreen :
    after (step (withRegs { start 0x00E0 with fb := Framebuffer.setPixel State.reset.fb 9 4 true } [(15, 3)]))
        (fun t => (t.pixel 9 4, t.reg vf)) = some (false, 3) := by decide

/-- G5. -/
theorem test_display_negative_start_clips :
    after (step (withRegs (withBytes { start 0xD011 with index := 0x300 } 0x300 [0xC0]) [(0, -1), (1, -33)]))
        (fun t => (t.pixel 63 31, t.pixel 0 31, t.reg vf)) = some (true, false, 0) := by decide

/-- G12. -/
theorem test_display_collision :
    after (step (withRegs (withBytes { start 0xD011 with index := 0x300, fb := Framebuffer.setPixel State.reset.fb 3 0 true }
        0x300 [0xF0]) [(15, 9)])) (fun t => (t.pixel 0 0, t.pixel 3 0, t.pixel 4 0, t.reg vf))
      = some (true, false, false, 1) := by decide

/-- K1. -/
theorem test_skipIfPressed : after (step (withRegs (start 0xE19E (handOff [5] 0)) [(1, 5)])) (fun t => t.pc) = some 0x204 := by
  decide

/-- K3. -/
theorem test_skipIfPressed_range :
    after (step (withRegs (start 0xE19E) [(1, 16)])) faultOf = some (some (.keyRange 16, some 0xE19E, 0x202)) := by decide

/-- K6. -/
theorem test_skipIfNotPressed_held :
    after (step (withRegs (start 0xE1A1 (handOff [5] 0)) [(1, 5)])) (fun t => t.pc) = some 0x202 := by decide

/-- K7. -/
theorem test_getPressedValue_lowest :
    after (step (start 0xF00A (handOff [9, 3] 0))) (fun t => (t.reg 0, t.pc)) = some (3, 0x202) := by decide

/-- K9. -/
theorem test_getPressedValue_waits :
    after (step (withRegs (start 0xF00A) [(0, 77)])) (fun t => (t.reg 0, t.pc)) = some (77, 0x200) := by decide

/-- K10. -/
theorem test_regFromDelayTimer : after (step { start 0xF307 with dt := 7 }) (fun t => t.reg 3) = some 7 := by decide

/-- K12. -/
theorem test_delayTimerFromReg : after (step (withRegs (start 0xF015) [(0, 255)])) (fun t => (t.dt, t.st)) = some (255, 0) := by
  decide

/-- K13. -/
theorem test_delayTimerFromReg_range :
    after (step (withRegs (start 0xF015) [(0, 256)])) (fun t => (faultOf t, t.dt))
      = some (some (.timerValue 256, some 0xF015, 0x202), 0) := by decide

/-- K15. -/
theorem test_soundTimerFromReg : after (step (withRegs (start 0xF318) [(3, 0x20)])) (fun t => (t.dt, t.st)) = some (0, 0x20) := by
  decide

/-! ### The cycle, the host and reset -/

/-- P9a: an illegal word halts after the fetch. -/
theorem test_illegal_word_faults :
    after (step (start 0x8008)) (fun t => (faultOf t, t.pc)) = some (some (.decode 0x8008, some 0x8008, 0x202), 0x202) := by
  decide

/-- M3: no opcode, and `pc` not advanced. -/
theorem test_fetch_past_memory :
    after (step { start 0 with pc := 0xFFF }) (fun t => (faultOf t, t.pc)) = some (some (.fetchBounds 0xFFF, none, 0xFFF), 0xFFF) := by
  decide

/-- K18: two ticks before the cycle that reads the timer. -/
theorem test_ticks_before_cycle :
    after (step { start 0xF107 { handOff [] 0 with moves := [.tick, .tick] } with dt := 5 }) (fun t => (t.reg 1, t.dt))
      = some (3, 3) := by decide

/-- K17: a tick stops at 0. -/
theorem test_tick_stops_at_zero :
    ({ State.reset with dt := 1, st := 2 }.hostMoves [.tick, .tick, .tick]).dt = 0
    ∧ ({ State.reset with dt := 1, st := 2 }.hostMoves [.tick, .tick, .tick]).st = 0 := by decide

/-- 10_state R37, 60_exceptions R212: `dt_wr` sets DT alone and `st_wr` ST alone, and the moves act oldest first. -/
theorem test_host_sets_timers :
    after (step (start 0x0000 { handOff [] 0 with moves := [.setDelay 9, .tick, .setSound 4] })) (fun t => (t.dt, t.st))
      = some (8, 4) := by decide

/-- 10_state R37: a load at 0x1FF or after the first cycle has no effect, one at 0xFFF before it has. -/
theorem test_load_port :
    (State.reset.loadByte 0x1FF 7).mem = [] ∧ ({ State.reset with cycles := 1 }.loadByte 0x200 7).mem = []
    ∧ (State.reset.loadByte 0x200 7).mem = [(0x200, 7)] ∧ (State.reset.loadByte 0xFFF 7).mem = [(0xFFF, 7)] := by decide

/-- 60_exceptions R201: the code on `fault_cause` after a Return with an empty stack, and after a bad BCD value. -/
theorem test_fault_cause_port :
    after (step (start 0x00EE)) (fun t => (t.outputs.haltedOut, t.outputs.faultCause, t.outputs.faultPc))
      = some (true, 4, 0x202)
    ∧ after (step (withRegs (start 0xF033) [(0, 256)])) (fun t => t.outputs.faultCause) = some 8 := by decide

/-- B6: the key snapshot of the cycle. -/
theorem test_keys_overwritten : after (step (start 0x0000 (handOff [2] 0))) (fun t => t.keys[2]) = some true := by decide

/-- B1, 20_memory R53: the first and the last glyph's first bytes. -/
theorem test_reset_memory :
    State.reset.mem.read 0x050 = 0xF0 ∧ State.reset.mem.read 0x055 = 0x20 ∧ State.reset.mem.read 0x09F = 0x80
    ∧ State.reset.mem.read 0x0A0 = 0 ∧ State.reset.mem.read 0x04F = 0 ∧ State.reset.mem.read 0x200 = 0 := by decide

/-- M8: the Font Table is writable, and writing its byte back removes the entry. -/
theorem test_font_writable :
    Memory.write [] 0x050 0 = [(0x050, 0)] ∧ Memory.write [(0x050, 0)] 0x050 0xF0 = [] := by decide

/-! ### Witnesses: for each statement with hypotheses, states and operands that meet them, at the edges of the ranges -/

open Sys2Proof.Claims

/-- The reset state with one register set. -/
def regIs (x : RegIdx) (value : Int) : State := withRegs State.reset [(x, value)]

/-- The reset state with `I` set. -/
def indexIs (index : Word) : State := { State.reset with index := index }

/-- The reset state with a word stored at `pc`, and that `pc`. -/
def fetchAt (pc : Word) (op : Nat) : State := { State.reset with pc := pc }.withFetchWord 16 op

/-- The reset state under another window. -/
def narrow (lo hi : Int) : State := { State.reset with regMin := lo, regMax := hi }

/-- The ranges of every decoding clause, in the other statements too. -/
theorem test_witness_DecodeTable :
    ((0xFFF ≤ 0xFFF ∧ 0xFFF ≠ 0x0E0 ∧ 0xFFF ≠ 0x0EE) ∧ (0 ≤ 0xFFF ∧ 0 ≠ 0x0E0 ∧ 0 ≠ 0x0EE)) ∧ 0xFF ≤ 0xFF ∧ 0xF ≤ 0xF
    ∧ 0xF ∈ [0x8, 0x9, 0xA, 0xB, 0xC, 0xD, 0xF] ∧ (0x00 ≤ 0xFF ∧ 0x00 ∉ [0x9E, 0xA1])
    ∧ (0xFF ≤ 0xFF ∧ 0xFF ∉ [0x07, 0x0A, 0x15, 0x18, 0x1E, 0x29, 0x33, 0x55, 0x65]) := by decide

theorem test_witness_DecodeEncode :
    (Instr.display 15 15 15).wellFormed = true ∧ (Instr.jump 0xFFF).wellFormed = true
    ∧ (Instr.random 0 0xFF).wellFormed = true := by decide

theorem test_witness_DecodedMatchesRow :
    decodeWord 0xFF65 = some (.loadRegs 15) ∧ decodeWord 0x0FFF = some .nop ∧ decodeWord 0x5FFF = some (.skipCondRegEq 15 15) := by
  decide

theorem test_witness_EncodeDecode :
    decodeWord 0x8FFE = some (.shiftR 15 15) ∧ Instr.shiftR 15 15 ≠ .nop
    ∧ (∀ x y, Instr.shiftR 15 15 ≠ .skipCondRegEq x y) ∧ ∀ x y, Instr.shiftR 15 15 ≠ .skipCondRegNEq x y := by
  refine And.intro ?_ (And.intro ?_ (And.intro ?_ ?_)) <;> decide

theorem test_witness_LegalWordCount : (0xD < 16 ∧ 0xD ∉ [0x8, 0xE, 0xF]) ∧ 0 < 16 ∧ 0 ∉ [0x8, 0xE, 0xF] := by decide

theorem test_witness_BitwiseStaysInWindow :
    ((-2 ^ 15 : Int) ≤ -32768 ∧ (-32768 : Int) < 2 ^ 15) ∧ (-2 ^ 15 : Int) ≤ 32767 ∧ (32767 : Int) < 2 ^ 15 := by decide

theorem test_witness_NopChangesNothing :
    (0x0E1 ≤ 0xFFF ∧ 0x0E1 ≠ 0x0E0 ∧ 0x0E1 ≠ 0x0EE) ∧ decodeWord (wordNNN 0x0 0x0E1) = some .nop := by decide

theorem test_witness_JumpSetsPc : 0xFFF ≤ 0xFFF ∧ decodeWord (wordNNN 0x1 0xFFF) = some (.jump 0xFFF) := by decide

theorem test_witness_SetIndexSetsI : 0xFFF ≤ 0xFFF ∧ decodeWord (wordNNN 0xA 0xFFF) = some (.setIndex 0xFFF) := by decide

theorem test_witness_ClearScreenClears : (63 < 64 ∧ 31 < 32) ∧ 0 < 64 ∧ 0 < 32 := by decide

theorem test_witness_ReturnPops :
    { State.reset with stack := [0x204, 0x302] }.stack = [0x204] ++ [0x302] ∧ State.reset.stack = [] := by decide

theorem test_witness_CallPushes :
    { State.reset with stack := List.replicate 15 0x202 }.stack.length < 16
    ∧ { State.reset with stack := List.replicate 16 0x202 }.stack.length = 16 := by decide

theorem test_witness_CallThenReturn :
    0xFFF ≤ 0xFFF ∧ { State.reset with stack := List.replicate 15 0x202 }.stack.length < 16
    ∧ ∃ t, exec (.call 0xFFF) { State.reset with stack := List.replicate 15 0x202 } = .next t :=
  And.intro (by decide) (And.intro (by decide) (Exists.intro _ rfl))

theorem test_witness_JumpOffsetAddsV0 :
    ((0xFFFF : Word).toNat : Int) = (0xFFF : Nat) + (regIs 0 0xF000).reg 0
    ∧ ((0 : Word).toNat : Int) = (0x010 : Nat) + (regIs 0 (-0x010)).reg 0
    ∧ ((0x00F : Nat) : Int) + (regIs 0 (-0x010)).reg 0 < 0
    ∧ (0xFFFF : Int) < (0xFFF : Nat) + (regIs 0 0xF001).reg 0 := by decide

theorem test_witness_ConditionalSkips :
    RoomToSkip { State.reset with pc := 0xFFFD } ∧ State.reset.reg 1 = State.reset.reg 2
    ∧ (regIs 1 255).reg 1 = (255 : Nat) ∧ (regIs 1 255).reg 1 ≠ (regIs 1 255).reg 2 ∧ (regIs 1 255).reg 1 ≠ (254 : Nat) := by
  decide

/-- The clauses of a register write: a value at either end of the window, and one past it. -/
theorem test_witness_SetAndAdd :
    State.reset.inWindow 255 ∧ State.reset.inWindow ((regIs 3 32512).reg 3 + (255 : Nat))
    ∧ State.reset.regMax < (regIs 3 32513).reg 3 + (255 : Nat)
    ∧ (narrow (-1) 254).regMax < ((255 : Nat) : Int) := by decide

theorem test_witness_SetRCopies : (withRegs State.reset [(0, -32768), (15, 32767)]).RegsInWindow := by decide

theorem test_witness_BitwiseInstructions :
    State.reset.inWindow (intOr (-32768) 32767) ∧ State.reset.inWindow (intAnd (-32768) (-1))
    ∧ State.reset.inWindow (intXor (-32768) 32767) ∧ (narrow (-1) 2).regMax < intOr 1 2
    ∧ intAnd (-3) (-2) < (narrow (-3) 2).regMin ∧ (narrow (-1) 2).regMax < intXor 1 2 := by decide

theorem test_witness_SumAndDifference :
    State.reset.inWindow (32766 + 1) ∧ State.reset.regMax < (32767 : Int) + 1
    ∧ State.reset.inWindow (-32767 - 1) ∧ (-32768 : Int) - 1 < State.reset.regMin := by decide

theorem test_witness_Sub21IsZero : State.reset.WindowLegal ∧ (narrow (-1) 1).WindowLegal := by decide

theorem test_witness_ShiftLeft :
    State.reset.WindowLegal
    ∧ (State.reset.regMin ≤ (regIs 2 16383).reg 2 * 2 ∧ (regIs 2 16383).reg 2 * 2 ≤ State.reset.regMax)
    ∧ (State.reset.regMin ≤ (regIs 15 (-16384)).reg 15 * 2 ∧ (regIs 15 (-16384)).reg 15 * 2 ≤ State.reset.regMax)
    ∧ State.reset.regMax < (regIs 15 16384).reg 15 * 2 ∧ (regIs 2 (-16385)).reg 2 * 2 < State.reset.regMin := by decide

theorem test_witness_ShiftRight : (regIs 15 (-32768)).WindowLegal ∧ (regIs 15 (-32768)).RegsInWindow := by decide

theorem test_witness_RandomMasksDraw :
    State.reset.inWindow (({ State.reset with draw := 1000 }.draw.val &&& 0xFF : Nat) : Int)
    ∧ (narrow (-1) 231).regMax < (({ narrow (-1) 231 with draw := 1000 }.draw.val &&& 0xFF : Nat) : Int)
    ∧ 0xFF ≤ 0xFF := by decide

theorem test_witness_AddToIndexAdds :
    ((0xFFFF : Word).toNat : Int) = (indexIs 0xFFFF).index.toNat + (indexIs 0xFFFF).reg 1
    ∧ ((indexIs 0).index.toNat : Int) + (regIs 1 (-1)).reg 1 < 0
    ∧ (0xFFFF : Int) < (indexIs 0xFFFF).index.toNat + (regIs 1 1).reg 1 := by decide

theorem test_witness_FontCharacterAddress :
    (regIs 4 15).reg 4 = (15 : Fin 16).val ∧ (regIs 4 0).reg 4 = (0 : Fin 16).val ∧ (regIs 4 (-1)).reg 4 < 0
    ∧ 15 < (regIs 4 16).reg 4 := by decide

theorem test_witness_DecimalDigits :
    ((regIs 4 255).reg 4 = (255 : Nat) ∧ 255 ≤ 255 ∧ (indexIs 4093).index.toNat + 2 ≤ 4095 ∧ (indexIs 4093).mem.wf = true)
    ∧ ((regIs 4 (-1)).reg 4 < 0 ∧ 255 < (regIs 4 256).reg 4)
    ∧ (0 ≤ (indexIs 4094).reg 4 ∧ (indexIs 4094).reg 4 ≤ 255 ∧ 4095 < (indexIs 4094).index.toNat + 2) := by decide

theorem test_witness_StoreRegsStores :
    ((∀ k ≤ (15 : RegIdx), Storable (indexIs 4080) k) ∧ (indexIs 4080).mem.wf = true)
    ∧ ((∀ j < (15 : RegIdx), Storable (indexIs 4081) j) ∧ 4095 < (indexIs 4081).index.toNat + (15 : RegIdx).val)
    ∧ ((∀ j < (1 : RegIdx), Storable (regIs 1 256) j) ∧ 255 < (regIs 1 256).reg 1)
    ∧ (∀ j < (1 : RegIdx), Storable (regIs 1 (-1)) j) ∧ (regIs 1 (-1)).reg 1 < 0 := by decide

theorem test_witness_LoadRegsLoads :
    (State.reset.regMin ≤ 0 ∧ (indexIs 4080).index.toNat + (15 : RegIdx).val ≤ 4095
      ∧ ∀ k ≤ (15 : RegIdx), ((indexIs 4080).mem.read ((indexIs 4080).index.toNat + k.val)).toNat ≤ State.reset.regMax)
    ∧ 4095 < (indexIs 4081).index.toNat + (15 : RegIdx).val
    ∧ (narrow (-1) 0xEF).regMax < ({ narrow (-1) 0xEF with index := 0x050 }.mem.read 0x050).toNat := by decide

theorem test_witness_StoreThenLoad :
    State.reset.mem.wf = true ∧ State.reset.WindowHoldsBytes ∧ (∀ k ≤ (15 : RegIdx), Storable (regIs 15 255) k)
    ∧ ∃ t, exec (.storeRegs 15) (regIs 15 255) = .next t :=
  And.intro (by decide) (And.intro (by decide) (And.intro (by decide) (Exists.intro _ rfl)))

theorem test_witness_DisplayXors :
    (1 ≤ 2 ∧ 4095 < (indexIs 4095).index.toNat + 2 - 1) ∧ (1 ≤ 1 ∧ 4095 < (indexIs 0xFFFF).index.toNat + 1 - 1)
    ∧ State.reset.WindowLegal ∧ (indexIs 4081).index.toNat + 15 ≤ 4096 ∧ (0 = 0 ∨ (indexIs 0xFFFF).index.toNat + 0 ≤ 4096) := by
  decide

theorem test_witness_KeySkips :
    (regIs 3 15).reg 3 = (15 : Fin 16).val ∧ RoomToSkip (regIs 3 15)
    ∧ (handOff [15] 0).keys[15] = true ∧ (regIs 3 15).keys[15] = false ∧ (regIs 3 (-1)).reg 3 < 0 ∧ 15 < (regIs 3 16).reg 3 := by
  decide

theorem test_witness_KeyWait :
    (({ State.reset with keys := (handOff [15] 0).keys }.keys[(15 : Fin 16).val] = true)
      ∧ (∀ j < (15 : Fin 16), { State.reset with keys := (handOff [15] 0).keys }.keys[j.val] = false)
      ∧ State.reset.inWindow (15 : Fin 16).val ∧ (narrow (-1) 14).regMax < ((15 : Fin 16).val : Int))
    ∧ (∀ k : Fin 16, State.reset.keys[k.val] = false) ∧ 2 ≤ { State.reset with pc := 2 }.pc.toNat := by decide

theorem test_witness_DelayTimerRead :
    State.reset.inWindow ({ State.reset with dt := 255 }.dt.toNat : Int)
    ∧ (narrow (-1) 254).regMax < ({ narrow (-1) 254 with dt := 255 }.dt.toNat : Int) := by decide

theorem test_witness_TimerWrites :
    (regIs 6 255).reg 6 = (255 : Byte).toNat ∧ (regIs 6 0).reg 6 = (0 : Byte).toNat ∧ (regIs 6 (-1)).reg 6 < 0
    ∧ 255 < (regIs 6 256).reg 6 := by decide

theorem test_witness_CheckedAccesses : 4095 ≤ 4095 ∧ 4095 < 4096 ∧ (-1 : Int) < 0 ∧ (255 : Int) < 256 := by decide

theorem test_witness_LastWriteWins :
    State.reset.mem.wf = true ∧ ∀ w ∈ [((4095 : Nat), (1 : Byte)), (4095, 2), (0, 3)], w.1 ≤ 4095 := by decide

theorem test_witness_CanonicalMemory :
    Memory.wf [(0x050, 0), (0x200, 0x6A)] = true ∧ ∀ a ≤ 4095, Memory.read [(0x050, 0), (0x200, 0x6A)] a
      = Memory.read (Memory.write [(0x050, 0)] 0x200 0x6A) a := And.intro (by decide) (fun _ _ => rfl)

theorem test_witness_FetchReadsBigEndian :
    { State.reset with pc := 4094 }.pc.toNat + 1 ≤ 4095 ∧ 4095 < { State.reset with pc := 4095 }.pc.toNat + 1 := by decide

theorem test_witness_StepRunsDecoded :
    (fetchAt 4094 0xFF65).halted = none ∧ (fetchAt 4094 0xFF65).pc.toNat + 1 ≤ 4095
    ∧ decode [(fetchAt 4094 0xFF65).mem.read 4094, (fetchAt 4094 0xFF65).mem.read 4095] = .ok (.loadRegs 15, []) := by decide

theorem test_witness_StepFaultsBeforeExecute :
    ((fetchAt 4094 0x8008).halted = none ∧ (fetchAt 4094 0x8008).pc.toNat + 1 ≤ 4095
      ∧ decodeWord ((fetchAt 4094 0x8008).mem.word 4094) = none)
    ∧ { State.reset with pc := 4095 }.halted = none ∧ 4095 < { State.reset with pc := 4095 }.pc.toNat + 1 := by decide

theorem test_witness_HaltedHasNoStep :
    (State.reset.raise .stackUnderflow (some 0x00EE)).halted = some { cause := .stackUnderflow, opcode := some 0x00EE, pc := 0x200 } := by
  decide

theorem test_witness_FaultsArePrecise : after (exec .ret State.reset) (fun t => t.halted == State.reset.halted) = some false := by
  decide

theorem test_witness_FaultedStepState :
    ((start 0x00EE).halted = none ∧ after (step (start 0x00EE)) (fun t => t.halted == none) = some false)
    ∧ { start 0 with pc := 0xFFF }.halted = none
    ∧ after (step { start 0 with pc := 0xFFF }) (fun t => t.halted == none) = some false := by decide

theorem test_witness_RegisterWriters :
    after (exec (.shiftL 3 0) State.reset) (fun _ => true) = some true ∧ (2 : RegIdx) ∉ writes (.shiftL 3 0)
    ∧ (15 : RegIdx) ∉ writes (.loadRegs 14) ∧ (0 : RegIdx) ∉ writes (.display 0 0 1) := by decide

theorem test_witness_PcWriters :
    after (exec (.set 1 7) State.reset) (fun _ => true) = some true ∧ movesPc (.set 1 7) = false := by decide

theorem test_witness_OtherWriters :
    after (exec .nop State.reset) (fun _ => true) = some true ∧ writesIndex .nop = false ∧ storesMem .nop = false
    ∧ (Instr.nop ≠ .ret ∧ ∀ a, Instr.nop ≠ .call a) ∧ (∀ x, Instr.nop ≠ .delayTimerFromReg x)
    ∧ (∀ x, Instr.nop ≠ .soundTimerFromReg x) ∧ Instr.nop ≠ .clearScreen ∧ ∀ x y n, Instr.nop ≠ .display x y n := by
  refine And.intro (by decide) (And.intro (by decide) (And.intro (by decide) ?_)); simp

theorem test_witness_FlagWriters :
    after (exec (.set 15 7) State.reset) (fun t => (t.reg 15, State.reset.reg 15)) = some (7, 0)
    ∧ after (exec (.shiftR 1 0) (regIs 1 3)) (fun t => (t.reg 15, (regIs 1 3).reg 15)) = some (1, 0) := by decide

theorem test_witness_StepKeepsInv :
    (start 0x6A3F).Inv ∧ after (step (start 0x6A3F)) (fun t => t.reg 0xA) = some 0x3F :=
  And.intro { mem := by decide, window := by decide, regs := by decide, stack := by decide, record := fun r h => by cases h } (by decide)

theorem test_witness_ResetValues : (0x04F < 0x050 ∨ 0x09F < 0x04F) ∧ (0x0A0 < 0x050 ∨ 0x09F < 0x0A0) := by decide

theorem test_witness_FreshStates :
    (15 < 16 ∧ 4 < 5) ∧ (0x0A0 < 0x050 ∨ 0x09F < 0x0A0)
    ∧ ({ toArray := Params.font.toArray, size_toArray := rfl } : Vector Byte 80).toList = Params.font := by decide

theorem test_witness_RomLoad :
    3584 < (List.replicate 3585 (0 : Byte)).length ∧ (List.replicate 3584 (0 : Byte)).length ≤ 3584
    ∧ { State.reset with cycles := 1 }.cycles ≠ 0 ∧ State.reset.cycles = 0 ∧ State.reset.mem.wf = true
    ∧ (0x200 ≤ 0x200 ∧ 0xFFF ≤ 0xFFF) ∧ 0x1FF < 0x200 ∧ 0xFFF < 0x1000 := by
  refine And.intro ?_ (And.intro ?_ ?_)
  · rw [List.length_replicate]; decide
  · rw [List.length_replicate]
  · decide

theorem test_witness_StoreIsFetched :
    (start 0).mem.wf = true ∧ { start 0 with pc := 4094 }.halted = none ∧ { start 0 with pc := 4094 }.pc.toNat + 1 ≤ 4095
    ∧ decodeWord 0x6A3F = some (.set 0xA 0x3F) := by decide

theorem test_witness_FinishedIsFixed : (fetchAt 4094 0x1FFE).FinishedAt 4094 ∧ (start 0x1200).FinishedAt 0x200 :=
  And.intro { running := by decide, bound := by decide, pc := by decide, word := by decide }
    { running := by decide, bound := by decide, pc := by decide, word := by decide }

theorem test_witness_OutputPorts :
    State.reset.halted = none
    ∧ (State.reset.raise .stackUnderflow (some 0x00EE)).halted = some { cause := .stackUnderflow, opcode := some 0x00EE, pc := 0x200 }
    ∧ (State.reset.raise (.fetchBounds 0xFFF) none).halted = some { cause := .fetchBounds 0xFFF, opcode := none, pc := 0x200 } := by
  decide

end Sys2Proof.Tests
end

/-! ### Bits of two's-complement integers (00_scope R9) -/

namespace Sys2Proof.Machine

/-- The model's bit of an integer is Mathlib's two's-complement bit. -/
theorem bitOf_eq_testBit (k : Nat) (v : Int) : bitOf k v = if v.testBit k then 1 else 0 := by
  cases v with
  | ofNat m =>
    have h : bitOf k (Int.ofNat m) = ((m / 2 ^ k % 2 : Nat) : Int) := by simp [bitOf]
    rw [h, Int.testBit, Nat.testBit_eq_decide_div_mod_eq]
    simp only [decide_eq_true_eq]
    split <;> omega
  | negSucc m =>
    have h : bitOf k (Int.negSucc m) = -((m / 2 ^ k : Nat) + 1 : Int) % 2 := by
      rw [bitOf, Int.negSucc_ediv m (by positivity)]
      push_cast
      rfl
    rw [h, Int.testBit, Nat.testBit_eq_decide_div_mod_eq]
    simp only [Bool.not_eq_true', decide_eq_false_iff_not]
    split <;> omega

/-- `m ^^^ (m &&& n)` has the bits of `m` that `n` lacks. -/
theorem testBit_xor_and (m n k : Nat) : (m ^^^ (m &&& n)).testBit k = (m.testBit k && !n.testBit k) := by
  rw [Nat.testBit_xor, Nat.testBit_and]
  cases m.testBit k <;> simp

theorem testBit_intAnd (a b : Int) (k : Nat) : (intAnd a b).testBit k = (a.testBit k && b.testBit k) := by
  cases a <;> cases b <;> simp only [intAnd, Int.testBit, testBit_xor_and, Nat.testBit_and, Nat.testBit_or,
    Bool.not_or, Bool.and_comm]

theorem testBit_intOr (a b : Int) (k : Nat) : (intOr a b).testBit k = (a.testBit k || b.testBit k) := by
  cases a <;> cases b <;> simp only [intOr, Int.testBit, testBit_xor_and, Nat.testBit_and, Nat.testBit_or,
    Bool.not_and, Bool.not_not, Bool.or_comm]

theorem testBit_intXor (a b : Int) (k : Nat) : (intXor a b).testBit k = (a.testBit k ^^ b.testBit k) := by
  cases a <;> cases b <;> simp only [intXor, Int.testBit, Nat.testBit_xor, Bool.not_xor, Bool.xor_not, Bool.not_not]

/-- Settles O7: on Mathlib's `testBit` each operation is its Boolean one. -/
theorem bitwiseTwosComplement : Obligations.BitwiseTwosComplement := by
  unfold Obligations.BitwiseTwosComplement
  intro a b k
  simp only [bitOf_eq_testBit, testBit_intAnd, testBit_intOr, testBit_intXor]
  cases a.testBit k <;> cases b.testBit k <;> decide

end Sys2Proof.Machine

/-! ### What one step keeps -/

namespace Sys2Proof.Machine

/-- `t` keeps what the invariant says of `s` but for the fault record: canonical memory, the window, registers that are
the old ones or in the window, a stack that fits; and `halted` is as it was. -/
structure State.Keeps (s t : State) : Prop where
  mem : s.mem.wf = true → t.mem.wf = true
  regMin : t.regMin = s.regMin
  regMax : t.regMax = s.regMax
  regs : ∀ k, t.reg k = s.reg k ∨ s.inWindow (t.reg k)
  stack : s.StackFits → t.StackFits
  halted : t.halted = s.halted

/-- A state that differs only in fields the invariant does not speak of. -/
theorem State.Keeps.of_eq {s t : State} (hm : t.mem = s.mem) (hv : t.v = s.v) (hs : t.stack = s.stack)
    (hlo : t.regMin = s.regMin) (hhi : t.regMax = s.regMax) (hh : t.halted = s.halted) : s.Keeps t where
  mem := fun h => hm ▸ h
  regMin := hlo
  regMax := hhi
  regs := fun k => .inl (State.reg_congr hv k)
  stack := fun h => by rw [State.StackFits, hs]; exact h
  halted := hh

/-- Writing one register with a value of the window. -/
theorem State.keeps_setReg (s : State) (x : RegIdx) {a : Int} (ha : s.inWindow a) :
    s.Keeps { s with v := s.v.set x.val a } where
  mem := id
  regMin := rfl
  regMax := rfl
  regs := fun k => by
    rw [State.reg_set]
    split
    · exact .inr ha
    · exact .inl rfl
  stack := id
  halted := rfl

/-- Replacing the stack by one that fits, and `pc`. -/
theorem State.keeps_setStack (s : State) (p : Word) {ws : List Word}
    (hw : s.stack.length ≤ 16 → ws.length ≤ 16) : s.Keeps { s with pc := p, stack := ws } where
  mem := id
  regMin := rfl
  regMax := rfl
  regs := fun _ => .inl rfl
  stack := hw
  halted := rfl

/-- Two updates in sequence. -/
theorem State.Keeps.trans {s t u : State} (h : s.Keeps t) (h' : t.Keeps u) : s.Keeps u where
  mem := fun hm => h'.mem (h.mem hm)
  regMin := h'.regMin.trans h.regMin
  regMax := h'.regMax.trans h.regMax
  regs := fun k => by
    rcases h'.regs k with e | hw
    · rw [e]; exact h.regs k
    · exact .inr (by rwa [State.inWindow, h.regMin, h.regMax] at hw)
  stack := fun hs => h'.stack (h.stack hs)
  halted := h'.halted.trans h.halted

theorem Shape.reg.keeps {x : RegIdx} {s t : State} (h : Shape.reg x s t) : s.Keeps t := by
  obtain ⟨a, ha, rfl⟩ := h
  exact s.keeps_setReg x ha

theorem Shape.regFlag.keeps {x : RegIdx} {s t : State} (h : Shape.regFlag x s t) : s.Keeps t := by
  obtain ⟨a, b, ha, hb, rfl⟩ := h
  exact (s.keeps_setReg x ha).trans (State.keeps_setReg { s with v := s.v.set x.val a } vf hb)

theorem Shape.pc.keeps {s t : State} (h : Shape.pc s t) : s.Keeps t := by
  obtain ⟨p, rfl⟩ := h
  exact .of_eq rfl rfl rfl rfl rfl rfl

theorem Shape.index.keeps {s t : State} (h : Shape.index s t) : s.Keeps t := by
  obtain ⟨p, rfl⟩ := h
  exact .of_eq rfl rfl rfl rfl rfl rfl

theorem Shape.mem.keeps {s t : State} (h : Shape.mem s t) : s.Keeps t := by
  obtain ⟨m, hm, rfl⟩ := h
  exact { mem := hm, regMin := rfl, regMax := rfl, regs := fun _ => .inl rfl, stack := id, halted := rfl }

theorem Shape.loads.keeps {ks : List RegIdx} {s t : State} (h : Shape.loads ks s t) : s.Keeps t := by
  obtain ⟨ht, -, hregs⟩ := h
  exact { mem := fun hm => by rw [ht]; exact hm
          regMin := by rw [ht]
          regMax := by rw [ht]
          regs := hregs
          stack := fun hs => by rw [ht]; exact hs
          halted := by rw [ht] }

/-- The effect of every instruction keeps what the invariant says. -/
theorem Shape.keeps {i : Instr} {s t : State} (h : Shape i s t) : s.Keeps t := by
  cases i
  case clearScreen => obtain ⟨fb, rfl⟩ := h; exact .of_eq rfl rfl rfl rfl rfl rfl
  case nop => obtain rfl := h; exact .of_eq rfl rfl rfl rfl rfl rfl
  case ret =>
    obtain ⟨rest, p, hs, rfl⟩ := h
    exact s.keeps_setStack p fun hl => by rw [hs, List.length_append] at hl; omega
  case call =>
    obtain ⟨p, hl, rfl⟩ := h
    exact s.keeps_setStack p fun _ => by simpa using hl
  case display =>
    obtain ⟨fb, b, hb, rfl⟩ := h
    exact (s.keeps_setReg vf hb).trans (.of_eq rfl rfl rfl rfl rfl rfl)
  case delayTimerFromReg => obtain ⟨b, rfl⟩ := h; exact .of_eq rfl rfl rfl rfl rfl rfl
  case soundTimerFromReg => obtain ⟨b, rfl⟩ := h; exact .of_eq rfl rfl rfl rfl rfl rfl
  case getPressedValue => exact h.elim Shape.reg.keeps Shape.pc.keeps
  case shiftL | shiftR => exact Shape.regFlag.keeps h
  case loadRegs => exact Shape.loads.keeps h
  case hexToDecimalToIndex | storeRegs => exact Shape.mem.keeps h
  case setIndex | addToIndex | fontCharacter => exact Shape.index.keeps h
  case jump | jumpOffset | skipCondEq | skipCondNEq | skipCondRegEq | skipCondRegNEq | skipIfPressed
    | skipIfNotPressed => exact Shape.pc.keeps h
  case set | add | random | setR | binOr | binAnd | binXor | addR | sub12 | sub21 | regFromDelayTimer =>
    exact Shape.reg.keeps h

/-- Settles O46: the effect of an instruction leaves `halted`, so a change of it is the fault entry. -/
theorem faultsArePrecise : Obligations.FaultsArePrecise := by
  unfold Obligations.FaultsArePrecise
  intro i s t h hne
  rcases exec_cases h with hs | ⟨c, ⟨hr, h1, h2⟩, rfl⟩
  · exact absurd hs.keeps.halted hne
  · exact ⟨c, hr, h1, h2, rfl⟩

/-! ### The invariant -/

/-- A running state that keeps an invariant state's data meets the invariant: its record clause is empty. -/
theorem State.Keeps.inv {s t : State} (h : s.Keeps t) (hs : s.Inv) (hrun : s.Running) : t.Inv where
  mem := h.mem hs.mem
  window := by rw [State.WindowLegal, h.regMin, h.regMax]; exact hs.window
  regs := fun k => by
    rw [State.inWindow, h.regMin, h.regMax]
    rcases h.regs k with e | hw
    · rw [e]; exact hs.regs k
    · exact hw
  stack := h.stack hs.stack
  record := fun r hr => by rw [h.halted, hrun] at hr; cases hr

/-- The fault entry keeps the invariant when the record has a cause a cycle can raise, and an opcode unless the fetch
failed (60_exceptions R202, R207). -/
theorem State.Inv.raise {s : State} (hs : s.Inv) {c : Cause} {o : Option Word} (hc : c.reachable = true)
    (ho : o.isSome = true ↔ c.code ≠ 1) : (s.raise c o).Inv where
  mem := hs.mem
  window := hs.window
  regs := hs.regs
  stack := hs.stack
  record := fun r hr => by
    obtain rfl := Option.some.inj hr
    exact ⟨rfl, hc, ho⟩

/-- An instruction keeps the invariant from a running state. -/
theorem inv_of_exec {i : Instr} {s t : State} (hs : s.Inv) (hrun : s.Running) (h : exec i s = .next t) : t.Inv := by
  rcases exec_cases h with hshape | ⟨c, ⟨hr, h1, -⟩, rfl⟩
  · exact hshape.keeps.inv hs hrun
  · exact hs.raise hr (by simpa using h1)

/-- Executing the fetched word keeps it too: an illegal word raises `DECODE`. -/
theorem inv_of_execWord {op : Word} {s t : State} (hs : s.Inv) (hrun : s.Running) (h : execWord op s = .next t) :
    t.Inv := by
  unfold execWord at h
  split at h
  · exact inv_of_exec hs hrun h
  · obtain rfl := Host.Outcome.next.inj h
    exact hs.raise rfl (by simp [Cause.code])

/-! The host's hand-offs and the fetch touch nothing the invariant speaks of. -/

theorem State.keeps_hostMoves (s : State) (ms : List HostMove) : s.Keeps (s.hostMoves ms) :=
  .of_eq rfl rfl rfl rfl rfl rfl

theorem State.keeps_beginCycle (s : State) (ks : Keys) (r : Draw) : s.Keeps (s.beginCycle ks r) :=
  .of_eq rfl rfl rfl rfl rfl rfl

theorem State.keeps_fetched (s : State) (op : Word) : s.Keeps ({ s with pc := s.pc + 2 }.holdOpcode op) :=
  .of_eq rfl rfl rfl rfl rfl rfl

/-- What a cycle can do: run the fetched word, or raise `FETCH_BOUNDS` (70_reset R235). -/
theorem cycle_cases (ks : Keys) (r : Draw) (s : State) :
    (∃ op, cycle ks r s =
      execWord op ({ s.beginCycle ks r with pc := (s.beginCycle ks r).pc + 2 }.holdOpcode op))
    ∨ cycle ks r s = .next ((s.beginCycle ks r).raise (.fetchBounds s.pc) none) := by
  by_cases h : (s.beginCycle ks r).pc.toNat + 1 ≤ 4095
  · exact .inl ⟨_, by rw [cycle, State.fetch_ok _ h]⟩
  · exact .inr (by rw [cycle, State.fetch_error _ (by omega)]; rfl)

/-- A cycle keeps the invariant from a running state. -/
theorem inv_of_cycle {ks : Keys} {r : Draw} {s t : State} (hs : s.Inv) (hrun : s.Running)
    (h : cycle ks r s = .next t) : t.Inv := by
  have hbegin : (s.beginCycle ks r).Inv := (s.keeps_beginCycle ks r).inv hs hrun
  rcases cycle_cases ks r s with ⟨op, e⟩ | e <;> rw [e] at h
  · exact inv_of_execWord (((s.beginCycle ks r).keeps_fetched op).inv hbegin hrun) hrun h
  · obtain rfl := Host.Outcome.next.inj h
    exact hbegin.raise rfl (by simp [Cause.code])

/-- Settles O52: a step of a running block is the host's timer moves and a cycle; a halted block has none. -/
theorem stepKeepsInv : Obligations.StepKeepsInv := by
  unfold Obligations.StepKeepsInv
  intro s t hs h
  unfold step at h
  split at h
  · cases h
  · next hrun => exact inv_of_cycle ((s.keeps_hostMoves _).inv hs hrun) hrun h

end Sys2Proof.Machine

/-! ### What each instruction leaves unchanged (10_state R23 to R33) -/

namespace Sys2Proof.Machine

open Sys2Proof.Claims

/-- `t` differs from `s` only in what the instruction may write, by the writers of each field that the spec names, and
in the fault record. By default a clause holds because the update leaves the field as it was, so that a proof gives the
clauses of the written fields alone. -/
structure WritesOnly (i : Instr) (s t : State) : Prop where
  regs : ∀ k, k ∉ writes i → t.reg k = s.reg k := by intros; rfl
  pc : movesPc i = false → t.pc = s.pc := by intros; rfl
  index : writesIndex i = false → t.index = s.index := by intros; rfl
  mem : storesMem i = false → t.mem = s.mem := by intros; rfl
  stack : (i ≠ .ret ∧ ∀ a, i ≠ .call a) → t.stack = s.stack := by intros; rfl
  dt : (∀ x, i ≠ .delayTimerFromReg x) → t.dt = s.dt := by intros; rfl
  st : (∀ x, i ≠ .soundTimerFromReg x) → t.st = s.st := by intros; rfl
  fb : (i ≠ .clearScreen ∧ ∀ x y n, i ≠ .display x y n) → t.fb = s.fb := by intros; rfl
  keys : t.keys = s.keys := by rfl
  regMin : t.regMin = s.regMin := by rfl
  regMax : t.regMax = s.regMax := by rfl
  opcode : t.opcode = s.opcode := by rfl
  draw : t.draw = s.draw := by rfl
  script : t.script = s.script := by rfl
  cycles : t.cycles = s.cycles := by rfl

/-- Writing a register of a list leaves those outside it. -/
theorem State.reg_set_of_mem (s : State) {x k : RegIdx} (a : Int) {xs : List RegIdx} (hx : x ∈ xs) (hk : k ∉ xs) :
    State.reg { s with v := s.v.set x.val a } k = s.reg k := by
  rw [State.reg_set, if_neg (ne_of_mem_of_not_mem hx hk)]

theorem Shape.reg.writesOnly {i : Instr} {x : RegIdx} {s t : State} (hx : x ∈ writes i) (h : Shape.reg x s t) :
    WritesOnly i s t := by
  obtain ⟨a, -, rfl⟩ := h
  exact { regs := fun _ hk => s.reg_set_of_mem a hx hk }

theorem Shape.regFlag.writesOnly {i : Instr} {x : RegIdx} {s t : State} (hx : x ∈ writes i) (hf : vf ∈ writes i)
    (h : Shape.regFlag x s t) : WritesOnly i s t := by
  obtain ⟨a, b, -, -, rfl⟩ := h
  exact { regs := fun k hk => calc
            _ = State.reg { s with v := s.v.set x.val a } k :=
              State.reg_set_of_mem { s with v := s.v.set x.val a } b hf hk
            _ = s.reg k := s.reg_set_of_mem a hx hk }

theorem Shape.pc.writesOnly {i : Instr} {s t : State} (hi : movesPc i = true) (h : Shape.pc s t) :
    WritesOnly i s t := by
  obtain ⟨p, rfl⟩ := h
  exact { pc := fun h => absurd (hi.symm.trans h) nofun }

theorem Shape.index.writesOnly {i : Instr} {s t : State} (hi : writesIndex i = true) (h : Shape.index s t) :
    WritesOnly i s t := by
  obtain ⟨p, rfl⟩ := h
  exact { index := fun h => absurd (hi.symm.trans h) nofun }

theorem Shape.mem.writesOnly {i : Instr} {s t : State} (hi : storesMem i = true) (h : Shape.mem s t) :
    WritesOnly i s t := by
  obtain ⟨m, -, rfl⟩ := h
  exact { mem := fun h => absurd (hi.symm.trans h) nofun }

/-- The registers of a run are those up to its last one. -/
theorem mem_regsUpTo {x k : RegIdx} : k ∈ regsUpTo x ↔ k ≤ x := by
  rw [regsUpTo, List.mem_take_iff_getElem]
  constructor
  · rintro ⟨j, hj, rfl⟩
    rw [List.getElem_finRange, Fin.le_def]
    exact Nat.lt_succ_iff.mp (lt_min_iff.mp hj).1
  · intro h
    have hlen : k.val < (List.finRange 16).length := by rw [List.length_finRange]; exact k.isLt
    exact ⟨k.val, lt_min (Nat.lt_succ_iff.mpr h) hlen, List.getElem_finRange hlen⟩

theorem mem_writes_loadRegs {x k : RegIdx} : k ∈ writes (.loadRegs x) ↔ k ≤ x := by simp [writes]

theorem Shape.loads.writesOnly {x : RegIdx} {s t : State} (h : Shape.loads (regsUpTo x) s t) :
    WritesOnly (.loadRegs x) s t := by
  obtain ⟨ht, hregs, -⟩ := h
  obtain ⟨w, rfl⟩ : ∃ w, t = { s with v := w } := ⟨t.v, ht⟩
  exact { regs := fun k hk => hregs k (by rwa [mem_regsUpTo, ← mem_writes_loadRegs]) }

/-- The effect of every instruction writes only what the spec lets it write. -/
theorem Shape.writesOnly {i : Instr} {s t : State} (h : Shape i s t) : WritesOnly i s t := by
  cases i
  case clearScreen => obtain ⟨fb, rfl⟩ := h; exact { fb := fun h => absurd rfl h.1 }
  case nop => obtain rfl := h; exact {}
  case ret => obtain ⟨rest, p, -, rfl⟩ := h; exact { pc := nofun, stack := fun h => absurd rfl h.1 }
  case call a => obtain ⟨p, -, rfl⟩ := h; exact { pc := nofun, stack := fun h => absurd rfl (h.2 a) }
  case display x y n =>
    obtain ⟨fb, b, -, rfl⟩ := h
    exact { regs := fun k hk => s.reg_set_of_mem b (List.mem_singleton_self vf) hk
            fb := fun h => absurd rfl (h.2 x y n) }
  case delayTimerFromReg x => obtain ⟨b, rfl⟩ := h; exact { dt := fun h => absurd rfl (h x) }
  case soundTimerFromReg x => obtain ⟨b, rfl⟩ := h; exact { st := fun h => absurd rfl (h x) }
  case getPressedValue x =>
    exact h.elim (Shape.reg.writesOnly (List.mem_singleton_self x)) (Shape.pc.writesOnly rfl)
  case shiftL x _ | shiftR x _ => exact Shape.regFlag.writesOnly (by simp [writes]) (by simp [writes]) h
  case loadRegs => exact Shape.loads.writesOnly h
  case hexToDecimalToIndex | storeRegs => exact Shape.mem.writesOnly rfl h
  case setIndex | addToIndex | fontCharacter => exact Shape.index.writesOnly rfl h
  case jump | jumpOffset | skipCondEq | skipCondNEq | skipCondRegEq | skipCondRegNEq | skipIfPressed
    | skipIfNotPressed => exact Shape.pc.writesOnly rfl h
  case set | add | random | setR | binOr | binAnd | binXor | addR | sub12 | sub21 | regFromDelayTimer =>
    exact Shape.reg.writesOnly (List.mem_singleton_self _) h

/-- An instruction writes only what the spec lets it write: a fault entry writes none of these fields. -/
theorem writesOnly_of_exec {i : Instr} {s t : State} (h : exec i s = .next t) : WritesOnly i s t := by
  rcases exec_cases h with hshape | ⟨c, -, rfl⟩
  · exact hshape.writesOnly
  · exact {}

/-- Settles O48: the register clause of `WritesOnly`. -/
theorem registerWriters : Obligations.RegisterWriters := by
  unfold Obligations.RegisterWriters
  exact fun _ _ _ k h => (writesOnly_of_exec h).regs k

/-- Settles O49: the `pc` clause of `WritesOnly`. -/
theorem pcWriters : Obligations.PcWriters := by
  unfold Obligations.PcWriters
  exact fun _ _ _ h => (writesOnly_of_exec h).pc

/-- Settles O50: the other clauses of `WritesOnly`. -/
theorem otherWriters : Obligations.OtherWriters := by
  unfold Obligations.OtherWriters
  intro i s t h
  have hw := writesOnly_of_exec h
  exact ⟨hw.index, hw.mem, hw.stack, hw.dt, hw.st, hw.fb, hw.keys, hw.regMin, hw.regMax, hw.opcode, hw.draw,
    hw.script, hw.cycles⟩

/-- Settles O51: VF changes only if it is among the instruction's written registers; the instructions left at the
end write none. -/
theorem flagWriters : Obligations.FlagWriters := by
  unfold Obligations.FlagWriters
  intro i s t h hne
  have hw : 15 ∈ writes i := by_contra fun hk => hne ((writesOnly_of_exec h).regs 15 hk)
  cases i
  case shiftL x y | shiftR x y => simp
  case display x y n => simp
  case loadRegs x =>
    obtain rfl : x = 15 := Fin.last_le_iff.mp (mem_writes_loadRegs.mp hw)
    simp
  case set x _ | add x _ | random x _ | setR x _ | binOr x _ | binAnd x _ | binXor x _ | addR x _ | sub12 x _
    | sub21 x _ | regFromDelayTimer x | getPressedValue x =>
    obtain rfl : 15 = x := List.mem_singleton.mp hw
    simp
  all_goals exact absurd hw List.not_mem_nil

/-! ### The state after reset (10_state R38) -/

@[simp] theorem State.reset_reg (k : RegIdx) : State.reset.reg k = 0 := by
  simp [State.reg, State.reset]

/-- Outside the Font Table a byte is 0 at creation (20_memory R51). -/
theorem Params.resetByte_outside {a : Nat} (h : a < 0x050 ∨ 0x09F < a) : Params.resetByte a = 0 := by
  rw [Params.resetByte, Config.fontBase]
  split
  · have hlen : Params.font.length = 80 := rfl
    exact List.getD_eq_default _ _ (by omega)
  · rfl

/-- Settles O53: memory lists no byte, and 0 is in the window. -/
theorem resetInv : Obligations.ResetInv := by
  unfold Obligations.ResetInv
  exact { mem := State.reset_mem_wf
          window := by decide
          regs := fun k => by rw [State.reset_reg]; decide
          stack := Nat.zero_le _
          record := nofun }

/-- Settles O54: memory lists no byte, so it reads as at creation. -/
theorem resetValues : Obligations.ResetValues := by
  unfold Obligations.ResetValues
  refine ⟨fun a ha => Params.resetByte_outside ha, State.reset_reg, rfl, rfl, rfl, rfl, rfl, fun k => ?_,
    Framebuffer.pixel_cleared, rfl⟩
  exact Vector.getElem_replicate k.isLt

/-! ### The output ports (10_state R37) -/

@[simp] theorem State.outputs_dtOut (s : State) : s.outputs.dtOut = s.dt := by unfold State.outputs; split <;> rfl
@[simp] theorem State.outputs_stOut (s : State) : s.outputs.stOut = s.st := by unfold State.outputs; split <;> rfl
@[simp] theorem State.outputs_fbOut (s : State) : s.outputs.fbOut = s.fb := by unfold State.outputs; split <;> rfl

/-- Bit `64*y + x` of `fb_out` is the pixel at column `x`, row `y`. -/
theorem State.outputs_fbBit (s : State) {x : Nat} (hx : x < 64) (y : Nat) :
    s.outputs.fbBit (64 * y + x) = s.pixel x y := by
  have hcol : (64 * y + x) % 64 = x := by omega
  have hrow : (64 * y + x) / 64 = y := by omega
  rw [Outputs.fbBit, State.outputs_fbOut, hcol, hrow, State.pixel]

theorem State.outputs_running {s : State} (h : s.halted = none) :
    s.outputs = { dtOut := s.dt, stOut := s.st, fbOut := s.fb, haltedOut := false, faultCause := 0, faultOpcode := 0,
                  faultOpcodeValid := false, faultPc := 0 } := by
  simp only [State.outputs, h]

theorem State.outputs_halted {s : State} {r : FaultRecord} (h : s.halted = some r) :
    s.outputs = { dtOut := s.dt, stOut := s.st, fbOut := s.fb, haltedOut := true, faultCause := r.cause.code,
                  faultOpcode := r.opcode.getD 0, faultOpcodeValid := r.opcode.isSome, faultPc := r.pc } := by
  simp only [State.outputs, h]

/-- Each cause has its code, whatever its diagnostic info (60_exceptions R201). -/
theorem causeCodes : CauseCodes := by
  refine ⟨?_, ?_, ?_, ?_, ?_, ?_, ?_, ?_, ?_, ?_, ?_, ?_, ?_, ?_⟩ <;> intros <;> rfl

/-- Settles O59: the ports of a running and of a halted block, written out. -/
theorem outputPorts : Obligations.OutputPorts := by
  unfold Obligations.OutputPorts
  refine ⟨causeCodes, fun s => ⟨s.outputs_dtOut, s.outputs_stOut, fun x hx y _ => s.outputs_fbBit hx y, fun h => ?_,
    fun r h => ?_⟩⟩
  · rw [State.outputs_running h]
    exact ⟨rfl, rfl⟩
  · rw [State.outputs_halted h]
    exact ⟨rfl, rfl, rfl, Option.isSome_iff_ne_none, fun op hop => by rw [hop]; rfl⟩

end Sys2Proof.Machine

/-! ### Memory and the fetch (20_memory R54 to R65) -/

namespace Sys2Proof.Machine

open Sys2Proof.Claims

/-- Settles O39: the laws of `memRead` and `memWrite`, each check in the order of the rule. -/
theorem checkedAccesses : Obligations.CheckedAccesses := by
  unfold Obligations.CheckedAccesses
  exact fun s addr value =>
    ⟨s.memRead_ok addr, fun h => ⟨s.memRead_error addr h, s.memWrite_bounds addr value h⟩,
      s.memWrite_value addr value, fun b h => s.memWrite_byte addr b _ h rfl⟩

/-- Settles O42: the word's value is its two bytes', and `pc` is far below 2^16 when the fetch does not fault. -/
theorem fetchReadsBigEndian : Obligations.FetchReadsBigEndian := by
  unfold Obligations.FetchReadsBigEndian
  refine fun s => ⟨fun h => ?_, s.fetch_error⟩
  have hpc : (s.pc + 2).toNat = s.pc.toNat + 2 := by bv_omega
  exact ⟨s.mem.word s.pc.toNat, s.fetch_ok h, wordOfBytes_toNat _ _, hpc, by omega⟩

/-- Settles O40, by induction on the writes: the write at the head counts only when no later one is to the byte. -/
theorem lastWriteWins : Obligations.LastWriteWins := by
  unfold Obligations.LastWriteWins
  intro m writes a hm hw
  induction writes generalizing m with
  | nil => rfl
  | cons w later ih =>
    obtain ⟨hhead, hlater⟩ := List.forall_mem_cons.mp hw
    rw [List.foldl_cons, ih _ (Memory.wf_write _ hm hhead) hlater, List.reverse_cons, List.find?_append]
    cases later.reverse.find? (fun w => w.1 == a) with
    | some last => rfl
    | none =>
      rw [Memory.read_write hm]
      by_cases ha : w.1 = a
      · simp [ha]
      · simp [ha, Ne.symm ha]

/-- A step of a running block whose fetch is inside memory runs the word at `pc` from the entered state (70_reset R235). -/
theorem step_eq_execWord {s : State} (hrun : s.halted = none) (hpc : s.pc.toNat + 1 ≤ 4095) :
    step s = execWord (s.mem.word s.pc.toNat) (entered s) := by
  have hfetch := ((s.hostMoves s.nextInput.moves).beginCycle s.nextInput.keys s.nextInput.draw).fetch_ok hpc
  simp only [step, hrun, hostCycle, cycle, hfetch]
  rfl

theorem execWord_legal {op : Word} {i : Instr} (h : decodeWord op = some i) (s : State) : execWord op s = exec i s := by
  simp only [execWord, h]

/-- Settles O57: the bytes written are the word's (`Memory.putWord`), so the step fetches that word. -/
theorem storeIsFetched : Obligations.StoreIsFetched := by
  unfold Obligations.StoreIsFetched
  intro s op i hm hrun hpc hop
  have hword := Memory.word_putWord hm s.pc.toNat hpc op
  refine (step_eq_execWord (s := { s with mem := s.mem.putWord s.pc.toNat op }) hrun hpc).trans ?_
  rw [hword]
  exact execWord_legal hop _

end Sys2Proof.Machine

/-! ### The decoder and the encoder (30_encoding R70 to R86) -/

namespace Sys2Proof

open Sys2Proof.Claims

/-- Settles O2: the decoder sees the operands that the encoder wrote, and the row of `decodeFields` for them is the
instruction. One case for each of the four layouts of R71, and one for the three words without operands. -/
theorem decodeEncode : Obligations.DecodeEncode := by
  unfold Obligations.DecodeEncode
  intro i h
  cases i
  case clearScreen | ret | nop => decide
  case jump | call | setIndex | jumpOffset => exact decodeWord_wordNNN (by decide) (of_decide_eq_true h)
  case skipCondEq x _ | skipCondNEq x _ | set x _ | add x _ | random x _ =>
    exact decodeWord_wordXKK x (by decide) (of_decide_eq_true h)
  case display x y _ => exact decodeWord_wordXYN x y (by decide) (of_decide_eq_true h)
  case skipCondRegEq x y | skipCondRegNEq x y | setR x y | binOr x y | binAnd x y | binXor x y | addR x y | sub12 x y
    | shiftL x y | sub21 x y | shiftR x y => exact decodeWord_wordXYN x y (by decide) (by decide)
  case skipIfPressed x | skipIfNotPressed x | regFromDelayTimer x | getPressedValue x | delayTimerFromReg x
    | soundTimerFromReg x | addToIndex x | fontCharacter x | hexToDecimalToIndex x | storeRegs x | loadRegs x =>
    exact decodeWord_wordXKK x (by decide) (by decide)

/-- The two bytes of a well-formed instruction decode to it and leave the bytes after them (R70). -/
theorem decode_encodeBytes {i : Instr} (h : i.wellFormed = true) (rest : List Byte) :
    decode (encodeBytes i ++ rest) = .ok (i, rest) := by
  simp only [encodeBytes, List.cons_append, List.nil_append, decode, Machine.wordOfBytes_high_low, decodeEncode i h]

/-- Settles O6: the byte pairs are the encodings of those instructions. -/
theorem sampleWords : Obligations.SampleWords := by
  unfold Obligations.SampleWords
  exact ⟨decode_encodeBytes (i := .set 0xA 0x3F) rfl [], decode_encodeBytes (i := .display 1 2 3) rfl [],
    decode_encodeBytes (i := .call 0xABC) rfl [], decode_encodeBytes (i := .hexToDecimalToIndex 0xA) rfl [],
    decode_encodeBytes (i := .skipIfNotPressed 0xA) rfl [], decode_encodeBytes (i := .shiftL 0xA 0xB) rfl []⟩

/-! #### The sub-opcodes of groups 8, E and F -/

/-- The trailing nibbles of the rows of group 8 (R77). -/
def subOpcodes8 : List Nat := [0x0, 0x1, 0x2, 0x3, 0x4, 0x5, 0x6, 0x7, 0xE]

/-- The low bytes of the rows of group E (R79). -/
def subOpcodesE : List Nat := [0x9E, 0xA1]

/-- The low bytes of the rows of group F (R80). -/
def subOpcodesF : List Nat := [0x07, 0x0A, 0x15, 0x18, 0x1E, 0x29, 0x33, 0x55, 0x65]

theorem decodeGroup8_isSome {n : Nat} {x y : RegIdx} : (decodeGroup8 n x y).isSome = true ↔ n ∈ subOpcodes8 := by
  unfold decodeGroup8 subOpcodes8
  split_ifs <;> simp_all

theorem decodeGroupE_isSome {kk : Nat} {x : RegIdx} : (decodeGroupE kk x).isSome = true ↔ kk ∈ subOpcodesE := by
  unfold decodeGroupE subOpcodesE
  split_ifs <;> simp_all

theorem decodeGroupF_isSome {kk : Nat} {x : RegIdx} : (decodeGroupF kk x).isSome = true ↔ kk ∈ subOpcodesF := by
  unfold decodeGroupF subOpcodesF
  split_ifs <;> simp_all

/-! #### The decode table (R74 to R80) -/

/-- Group 0 outside its two fixed words is Nop. -/
theorem decodeWord_nop {nnn : Nat} (h : nnn ≤ 0xFFF) (hcls : nnn ≠ 0x0E0) (hret : nnn ≠ 0x0EE) :
    decodeWord (wordNNN 0x0 nnn) = some .nop := by
  rw [decodeWord_wordNNN (by decide) h, decodeFields, if_pos rfl, if_neg hcls, if_neg hret]

/-- Settles O1: a row whose word the encoder writes decodes by `decodeEncode`; left are Nop, the words of groups 5 and 9
with an ignored `n`, and the words of groups 8, E and F that are in no row. -/
theorem decodeTable : Obligations.DecodeTable := by
  unfold Obligations.DecodeTable
  have row (i : Instr) (h : i.wellFormed = true := by rfl) : decodeWord (encode i) = some i := decodeEncode i h
  refine ⟨row .clearScreen, row .ret, fun _ => decodeWord_nop,
    fun a h => row (.jump a) (decide_eq_true h), fun a h => row (.call a) (decide_eq_true h),
    fun a h => row (.setIndex a) (decide_eq_true h), fun a h => row (.jumpOffset a) (decide_eq_true h),
    fun x k h => row (.skipCondEq x k) (decide_eq_true h), fun x k h => row (.skipCondNEq x k) (decide_eq_true h),
    fun x k h => row (.set x k) (decide_eq_true h), fun x k h => row (.add x k) (decide_eq_true h),
    fun x k h => row (.random x k) (decide_eq_true h),
    fun n h => ⟨fun x y => decodeWord_wordXYN x y (by decide) h, fun x y => decodeWord_wordXYN x y (by decide) h,
      fun x y => row (.display x y n) (decide_eq_true h)⟩,
    fun x y => row (.setR x y), fun x y => row (.binOr x y), fun x y => row (.binAnd x y), fun x y => row (.binXor x y),
    fun x y => row (.addR x y), fun x y => row (.sub12 x y), fun x y => row (.shiftL x y), fun x y => row (.sub21 x y),
    fun x y => row (.shiftR x y), fun n hn x y => ?_,
    fun x => row (.skipIfPressed x), fun x => row (.skipIfNotPressed x), fun kk h hkk x => ?_,
    fun x => row (.regFromDelayTimer x), fun x => row (.getPressedValue x), fun x => row (.delayTimerFromReg x),
    fun x => row (.soundTimerFromReg x), fun x => row (.addToIndex x), fun x => row (.fontCharacter x),
    fun x => row (.hexToDecimalToIndex x), fun x => row (.storeRegs x), fun x => row (.loadRegs x), fun kk h hkk x => ?_⟩
  · have hnibble : ∀ n ∈ [0x8, 0x9, 0xA, 0xB, 0xC, 0xD, 0xF], n ≤ 0xF ∧ n ∉ subOpcodes8 := by decide
    obtain ⟨hle, hcode⟩ := hnibble n hn
    exact (decodeWord_wordXYN x y (by decide) hle).trans
      (Option.not_isSome_iff_eq_none.mp (mt decodeGroup8_isSome.mp hcode))
  · exact (decodeWord_wordXKK x (by decide) h).trans (Option.not_isSome_iff_eq_none.mp (mt decodeGroupE_isSome.mp hkk))
  · exact (decodeWord_wordXKK x (by decide) h).trans (Option.not_isSome_iff_eq_none.mp (mt decodeGroupF_isSome.mp hkk))

/-! #### What a decoded word looks like -/

/-- The words that an instruction is decoded from: its encoding, and for the instructions that ignore a field of their
word those with any value in that field (R75, R76, R81). -/
inductive EncodedBy : Instr → Word → Prop
  | encode {i : Instr} {op : Word} (hwf : i.wellFormed = true) (heq : encode i = op) : EncodedBy i op
  | nop {nnn : Nat} (h : nnn ≤ 0xFFF) : EncodedBy .nop (wordNNN 0x0 nnn)
  | skipCondRegEq (x y : RegIdx) {n : Nat} (h : n ≤ 0xF) : EncodedBy (.skipCondRegEq x y) (wordXYN 0x5 x y n)
  | skipCondRegNEq (x y : RegIdx) {n : Nat} (h : n ≤ 0xF) : EncodedBy (.skipCondRegNEq x y) (wordXYN 0x9 x y n)

/-- Every word is made of its four nibbles. -/
theorem exists_wordXYN (op : Word) : ∃ n1 ≤ 0xF, ∃ x y : RegIdx, ∃ n ≤ 0xF, op = wordXYN n1 x y n := by
  have hop := op.isLt
  refine ⟨op.toNat / 4096, by omega, regField op 8, regField op 4, op.toNat % 16, by omega, BitVec.eq_of_toNat_eq ?_⟩
  rw [wordXYN_toNat _ _ (by omega) (by omega), regField_val, regField_val]
  omega

theorem wordXYN_eq_wordNNN (n1 : Nat) (x y : RegIdx) (n : Nat) :
    wordXYN n1 x y n = wordNNN n1 (x.val * 256 + y.val * 16 + n) :=
  congrArg (BitVec.ofNat 16) (by omega)

theorem wordXYN_eq_wordXKK (n1 : Nat) (x y : RegIdx) (n : Nat) :
    wordXYN n1 x y n = wordXKK n1 x (y.val * 16 + n) :=
  congrArg (BitVec.ofNat 16) (by omega)

theorem encodedBy_of_group0 {x y : RegIdx} {n kk nnn : Nat} {i : Instr} (hnnn : nnn ≤ 0xFFF)
    (h : decodeFields 0x0 x y n kk nnn = some i) : EncodedBy i (wordNNN 0x0 nnn) := by
  rw [decodeFields, if_pos rfl] at h
  split_ifs at h with hcls hret <;> obtain rfl := Option.some.inj h
  · exact .encode rfl (by rw [hcls]; rfl)
  · exact .encode rfl (by rw [hret]; rfl)
  · exact .nop hnnn

theorem encodedBy_of_group8 {n : Nat} {x y : RegIdx} {i : Instr} (h : decodeGroup8 n x y = some i) :
    EncodedBy i (wordXYN 0x8 x y n) := by
  unfold decodeGroup8 at h
  split_ifs at h with hn hn hn hn hn hn hn hn hn <;>
    exact hn ▸ Option.some.inj h ▸ .encode rfl rfl

theorem encodedBy_of_groupE {kk : Nat} {x : RegIdx} {i : Instr} (h : decodeGroupE kk x = some i) :
    EncodedBy i (wordXKK 0xE x kk) := by
  unfold decodeGroupE at h
  split_ifs at h with hk hk <;> exact hk ▸ Option.some.inj h ▸ .encode rfl rfl

theorem encodedBy_of_groupF {kk : Nat} {x : RegIdx} {i : Instr} (h : decodeGroupF kk x = some i) :
    EncodedBy i (wordXKK 0xF x kk) := by
  unfold decodeGroupF at h
  split_ifs at h with hk hk hk hk hk hk hk hk hk <;> exact hk ▸ Option.some.inj h ▸ .encode rfl rfl

/-- What a decoded word can be, group by group. -/
theorem encodedBy_of_decodeWord {op : Word} {i : Instr} (h : decodeWord op = some i) : EncodedBy i op := by
  obtain ⟨n1, h1, x, y, n, hn, rfl⟩ := exists_wordXYN op
  rw [decodeWord_wordXYN x y h1 hn] at h
  have hkk : y.val * 16 + n ≤ 0xFF := by omega
  have hnnn : x.val * 256 + y.val * 16 + n ≤ 0xFFF := by omega
  have hNNN (n1 : Nat) := (wordXYN_eq_wordNNN n1 x y n).symm
  have hXKK (n1 : Nat) := (wordXYN_eq_wordXKK n1 x y n).symm
  interval_cases n1
  · exact hNNN 0x0 ▸ encodedBy_of_group0 hnnn h
  · exact Option.some.inj h ▸ .encode (decide_eq_true hnnn) (hNNN 0x1)
  · exact Option.some.inj h ▸ .encode (decide_eq_true hnnn) (hNNN 0x2)
  · exact Option.some.inj h ▸ .encode (decide_eq_true hkk) (hXKK 0x3)
  · exact Option.some.inj h ▸ .encode (decide_eq_true hkk) (hXKK 0x4)
  · exact Option.some.inj h ▸ .skipCondRegEq x y hn
  · exact Option.some.inj h ▸ .encode (decide_eq_true hkk) (hXKK 0x6)
  · exact Option.some.inj h ▸ .encode (decide_eq_true hkk) (hXKK 0x7)
  · exact encodedBy_of_group8 h
  · exact Option.some.inj h ▸ .skipCondRegNEq x y hn
  · exact Option.some.inj h ▸ .encode (decide_eq_true hnnn) (hNNN 0xA)
  · exact Option.some.inj h ▸ .encode (decide_eq_true hnnn) (hNNN 0xB)
  · exact Option.some.inj h ▸ .encode (decide_eq_true hkk) (hXKK 0xC)
  · exact Option.some.inj h ▸ .encode (decide_eq_true hn) rfl
  · exact hXKK 0xE ▸ encodedBy_of_groupE h
  · exact hXKK 0xF ▸ encodedBy_of_groupF h

/-- The encoding of a well-formed instruction has the fixed bits of its row. -/
theorem encode_mask : ∀ i : Instr, Laws.OpcodeRow.Statement i
  | .clearScreen => Laws.OpcodeRow.clearScreen | .ret => Laws.OpcodeRow.ret | .nop => Laws.OpcodeRow.nop
  | .jump a => Laws.OpcodeRow.jump a | .call a => Laws.OpcodeRow.call a
  | .skipCondEq x k => Laws.OpcodeRow.skipCondEq x k | .skipCondNEq x k => Laws.OpcodeRow.skipCondNEq x k
  | .skipCondRegEq x y => Laws.OpcodeRow.skipCondRegEq x y | .set x k => Laws.OpcodeRow.set x k
  | .add x k => Laws.OpcodeRow.add x k | .setR x y => Laws.OpcodeRow.setR x y | .binOr x y => Laws.OpcodeRow.binOr x y
  | .binAnd x y => Laws.OpcodeRow.binAnd x y | .binXor x y => Laws.OpcodeRow.binXor x y
  | .addR x y => Laws.OpcodeRow.addR x y | .sub12 x y => Laws.OpcodeRow.sub12 x y
  | .shiftL x y => Laws.OpcodeRow.shiftL x y | .sub21 x y => Laws.OpcodeRow.sub21 x y
  | .shiftR x y => Laws.OpcodeRow.shiftR x y | .skipCondRegNEq x y => Laws.OpcodeRow.skipCondRegNEq x y
  | .setIndex a => Laws.OpcodeRow.setIndex a | .jumpOffset a => Laws.OpcodeRow.jumpOffset a
  | .random x k => Laws.OpcodeRow.random x k | .display x y n => Laws.OpcodeRow.display x y n
  | .skipIfPressed x => Laws.OpcodeRow.skipIfPressed x | .skipIfNotPressed x => Laws.OpcodeRow.skipIfNotPressed x
  | .regFromDelayTimer x => Laws.OpcodeRow.regFromDelayTimer x
  | .getPressedValue x => Laws.OpcodeRow.getPressedValue x
  | .delayTimerFromReg x => Laws.OpcodeRow.delayTimerFromReg x
  | .soundTimerFromReg x => Laws.OpcodeRow.soundTimerFromReg x | .addToIndex x => Laws.OpcodeRow.addToIndex x
  | .fontCharacter x => Laws.OpcodeRow.fontCharacter x
  | .hexToDecimalToIndex x => Laws.OpcodeRow.hexToDecimalToIndex x | .storeRegs x => Laws.OpcodeRow.storeRegs x
  | .loadRegs x => Laws.OpcodeRow.loadRegs x

/-- Settles O3: `encode_mask` for the encodings; the words with an ignored field have the fixed bits of their group. -/
theorem decodedMatchesRow : Obligations.DecodedMatchesRow := by
  unfold Obligations.DecodedMatchesRow
  intro op i h
  cases encodedBy_of_decodeWord h with
  | encode hwf heq => exact ⟨hwf, heq ▸ encode_mask i hwf⟩
  | nop hnnn => exact ⟨rfl, wordNNN_mask (by decide) hnnn _ rfl⟩
  | skipCondRegEq x y hn => exact ⟨rfl, wordXYN_mask x y (by decide) hn _ rfl⟩
  | skipCondRegNEq x y hn => exact ⟨rfl, wordXYN_mask x y (by decide) hn _ rfl⟩

/-- Settles O4: the other words of `EncodedBy` are those of the three instructions that the statement leaves out. -/
theorem encodeDecode : Obligations.EncodeDecode := by
  unfold Obligations.EncodeDecode
  intro op i h hnop hregEq hregNEq
  cases encodedBy_of_decodeWord h with
  | encode _ heq => exact heq
  | nop => exact absurd rfl hnop
  | skipCondRegEq x y => exact absurd rfl (hregEq x y)
  | skipCondRegNEq x y => exact absurd rfl (hregNEq x y)

/-! #### How many words are legal (R79, R80, R82) -/

/-- The rows of the other thirteen groups leave no word out. -/
theorem decodeFields_isSome {n1 : Nat} (h1 : n1 < 16) (h : n1 ∉ [0x8, 0xE, 0xF]) (x y : RegIdx) (n kk nnn : Nat) :
    (decodeFields n1 x y n kk nnn).isSome = true := by
  have hgroup : ∀ n1 < 16, n1 ∉ [0x8, 0xE, 0xF] →
      n1 = 0x0 ∨ n1 ∈ [0x1, 0x2, 0x3, 0x4, 0x5, 0x6, 0x7, 0x9, 0xA, 0xB, 0xC, 0xD] := by decide
  rcases hgroup n1 h1 h with rfl | hrow
  · rw [decodeFields, if_pos rfl]
    split_ifs <;> rfl
  · fin_cases hrow <;> rfl

/-- In a whole number of periods, a property of the remainder holds as often as in one period, times their number. -/
theorem countP_range_mul_mod (k b : Nat) (p : Nat → Bool) :
    (List.range (k * b)).countP (fun a => p (a % b)) = k * (List.range b).countP p := by
  induction k with
  | zero => simp
  | succ k ih =>
    have hperiod : (List.range b).countP (fun a => p ((k * b + a) % b)) = (List.range b).countP p :=
      List.countP_congr fun a ha => by rw [Nat.mul_add_mod_of_lt (List.mem_range.mp ha)]
    rw [Nat.succ_mul, List.range_add, List.countP_append, ih, List.countP_map, Nat.succ_mul]
    exact congrArg _ hperiod

theorem countP_range_mem {b : Nat} {codes : List Nat} (hnodup : codes.Nodup) (hlt : ∀ c ∈ codes, c < b) :
    (List.range b).countP (· ∈ codes) = codes.length := by
  rw [List.countP_eq_length_filter]
  refine List.Perm.length_eq ((List.perm_ext_iff_of_nodup (List.nodup_range.filter _) hnodup).mpr fun c => ?_)
  simpa using hlt c

/-- When the remainder of `nnn` modulo `b` decides whether a word is legal, each code stands for `k = 4096 / b` words. -/
theorem legalWords_eq {n1 : Nat} (codes : List Nat) (k b : Nat) (hkb : k * b = 4096) (hnodup : codes.Nodup)
    (hlt : ∀ c ∈ codes, c < b)
    (h : ∀ nnn ≤ 0xFFF, (decodeWord (wordNNN n1 nnn)).isSome = true ↔ nnn % b ∈ codes) :
    legalWords n1 = codes.length * k := by
  rw [Nat.mul_comm, ← countP_range_mem hnodup hlt, ← countP_range_mul_mod, hkb]
  exact List.countP_congr fun nnn hnnn => by
    rw [h nnn (Nat.le_of_lt_succ (List.mem_range.mp hnnn)), decide_eq_true_iff]

theorem legalWords_8 : legalWords 0x8 = 9 * 256 :=
  legalWords_eq subOpcodes8 256 16 rfl (by decide) (by decide) fun nnn h => by
    rw [decodeWord_wordNNN (by decide) h]; exact decodeGroup8_isSome

theorem legalWords_E : legalWords 0xE = 2 * 16 :=
  legalWords_eq subOpcodesE 16 256 rfl (by decide) (by decide) fun nnn h => by
    rw [decodeWord_wordNNN (by decide) h]; exact decodeGroupE_isSome

theorem legalWords_F : legalWords 0xF = 9 * 16 :=
  legalWords_eq subOpcodesF 16 256 rfl (by decide) (by decide) fun nnn h => by
    rw [decodeWord_wordNNN (by decide) h]; exact decodeGroupF_isSome

theorem countP_isSome_add_countP_isNone {α β : Type} (f : α → Option β) (l : List α) :
    l.countP (fun a => (f a).isSome) + l.countP (fun a => (f a).isNone) = l.length := by
  rw [List.length_eq_countP_add_countP fun a => (f a).isSome]
  exact congrArg _ (List.countP_congr fun a _ => by simp)

/-- A word of a group is either legal or illegal. -/
theorem legalWords_add_illegalWords (n1 : Nat) : legalWords n1 + illegalWords n1 = 4096 :=
  (countP_isSome_add_countP_isNone ..).trans List.length_range

/-- Settles O5: the legal words of groups 8, E and F counted in one period of their sub-opcode, and the rest by
subtraction. -/
theorem legalWordCount : Obligations.LegalWordCount := by
  unfold Obligations.LegalWordCount
  have h8 := legalWords_add_illegalWords 0x8
  have hE := legalWords_add_illegalWords 0xE
  have hF := legalWords_add_illegalWords 0xF
  rw [legalWords_8] at h8 ⊢
  rw [legalWords_E] at hE ⊢
  rw [legalWords_F] at hF ⊢
  refine ⟨fun n1 h1 hn1 nnn h => ?_, by omega⟩
  rw [decodeWord_wordNNN (by omega) h]
  exact decodeFields_isSome h1 hn1 ..

end Sys2Proof

/-! ### The faults before an instruction executes (30_encoding R83) -/

namespace Sys2Proof.Machine

open Sys2Proof.Claims

theorem execWord_illegal {op : Word} (h : decodeWord op = none) (s : State) :
    execWord op s = .next (s.raise (.decode op) (some op)) := by
  simp only [execWord, h]

/-- Settles O44: an illegal word raises `DECODE` in the entered state; a fetch outside memory faults before `pc` moves. -/
theorem stepFaultsBeforeExecute : Obligations.StepFaultsBeforeExecute := by
  unfold Obligations.StepFaultsBeforeExecute
  intro s hrun
  constructor
  · intro hpc hop
    exact (step_eq_execWord hrun hpc).trans (execWord_illegal hop _)
  · intro hpc
    have hfetch := ((s.hostMoves s.nextInput.moves).beginCycle s.nextInput.keys s.nextInput.draw).fetch_error hpc
    simp only [step, hrun, hostCycle, cycle, hfetch]
    rfl

end Sys2Proof.Machine

/-! ### Control flow (40_control R100 to R109) -/

namespace Sys2Proof.Machine

open Sys2Proof.Claims

/-- An instruction that ends by writing a word to `pc` completes, whatever it has written before. -/
theorem State.complete_setPc_word (s t : State) {p : Word} {x : Int} (h : (p.toNat : Int) = x) :
    s.complete (t.setPc x) = .next { t with pc := p } := by
  rw [t.setPc_word p x h, State.complete_ok]

/-- Return pops, then writes what it popped to `pc` (R101). -/
theorem exec_ret (s : State) : exec .ret s = s.complete (s.pop >>= fun popped => popped.2.setPc popped.1.toNat) := rfl

/-- Call pushes `pc`, then writes its target to it (R103). -/
theorem exec_call (addr : Nat) (s : State) :
    exec (.call addr) s = s.complete (s.push s.pc >>= fun pushed => pushed.setPc addr) := rfl

/-- Return ends in the state without the top entry, at that entry. -/
theorem completes_ret {s : State} {rest : List Word} {top : Word} (h : s.stack = rest ++ [top]) :
    Completes .ret s { s with pc := top, stack := rest } := by
  rw [Completes, exec_ret, s.pop_ok rest top h]
  exact s.complete_setPc_word { s with stack := rest } rfl

theorem faults_ret {s : State} (h : s.stack = []) : Faults .ret s .stackUnderflow := by
  rw [Faults, exec_ret, s.pop_error h]
  rfl

/-- Call with room on the stack ends with the post-fetch `pc` on top, at its target. -/
theorem completes_call {s : State} {target : Word} {addr : Nat} (haddr : target.toNat = addr)
    (h : s.stack.length < 16) :
    Completes (.call addr) s { s with stack := s.stack ++ [s.pc], pc := target } := by
  rw [Completes, exec_call, s.push_ok s.pc h]
  exact s.complete_setPc_word { s with stack := s.stack ++ [s.pc] } (congrArg Nat.cast haddr)

theorem faults_call {s : State} (addr : Nat) (h : 16 ≤ s.stack.length) : Faults (.call addr) s .stackOverflow := by
  rw [Faults, exec_call, s.push_error s.pc h]
  rfl

/-- Settles O14: after the Call the stack is the old one with the post-fetch `pc` on top, and Return takes that entry
back, wherever the fetch in between has put `pc`. -/
theorem callThenReturn : Obligations.CallThenReturn := by
  unfold Obligations.CallThenReturn
  intro s t addr haddr hroom hcall pc op
  have htarget : (BitVec.ofNat 16 addr).toNat = addr := by rw [BitVec.toNat_ofNat]; omega
  obtain rfl := Host.Outcome.next.inj ((completes_call htarget hroom).symm.trans hcall)
  exact completes_ret rfl

/-- Settles O10: `decodeWord_nop`, and Nop answers the state it started in. -/
theorem nopChangesNothing : Obligations.NopChangesNothing := by
  unfold Obligations.NopChangesNothing
  exact ⟨fun _ => decodeWord_nop, fun s => s.complete_ok s⟩

/-- Settles O11: the two ends of Return, by whether the stack has an entry. -/
theorem returnPops : Obligations.ReturnPops := by
  unfold Obligations.ReturnPops
  exact ⟨decodeEncode .ret rfl, fun _ => ⟨fun _ _ => completes_ret, faults_ret⟩⟩

/-- Settles O12: a word is always a value that `pc` can hold. -/
theorem jumpSetsPc : Obligations.JumpSetsPc := by
  unfold Obligations.JumpSetsPc
  exact ⟨fun nnn h => decodeEncode (.jump nnn) (decide_eq_true h), fun s _ => s.complete_setPc_word s rfl⟩

/-- Settles O13: the two ends of Call, by whether the stack has room. -/
theorem callPushes : Obligations.CallPushes := by
  unfold Obligations.CallPushes
  exact ⟨fun nnn h => decodeEncode (.call nnn) (decide_eq_true h),
    fun _ _ => ⟨completes_call rfl, fun h => faults_call _ h.ge⟩⟩

/-- Settles O15: the write of `pc` checks the exact sum, with no mask before it. -/
theorem jumpOffsetAddsV0 : Obligations.JumpOffsetAddsV0 := by
  unfold Obligations.JumpOffsetAddsV0
  refine ⟨fun nnn h => decodeEncode (.jumpOffset nnn) (decide_eq_true h),
    fun s nnn => ⟨fun target h => ?_, fun h => ?_⟩⟩
  · exact s.complete_setPc_word s h
  · exact congrArg s.complete (s.setPc_error _ h)

/-- An instruction that ends in `skipIf` skips when its condition holds and changes nothing when not. -/
theorem skipsWhen_of_skipIf {i : Instr} {s : State} {b : Bool} {condition : Prop} (hroom : RoomToSkip s)
    (hexec : exec i s = s.complete (s.skipIf b)) (hb : b = true ↔ condition) : SkipsWhen i s condition := by
  constructor <;> intro h
  · rw [Completes, hexec, hb.mpr h, s.skipIf_true hroom, State.complete_ok]
  · rw [Completes, hexec, Bool.eq_false_iff.mpr (mt hb.mp h), State.skipIf_false, State.complete_ok]

/-- Settles O16: the four skips are `skipIf` of their comparison (`skipsWhen_of_skipIf`). -/
theorem conditionalSkips : Obligations.ConditionalSkips := by
  unfold Obligations.ConditionalSkips
  refine ⟨fun x kk h => decodeEncode (.skipCondEq x kk) (decide_eq_true h),
    fun x kk h => decodeEncode (.skipCondNEq x kk) (decide_eq_true h),
    fun n h => ⟨fun x y => decodeWord_wordXYN x y (by decide) h, fun x y => decodeWord_wordXYN x y (by decide) h⟩,
    fun s x y kk hroom => ⟨?_, ?_, ?_, ?_⟩⟩
  · exact skipsWhen_of_skipIf hroom rfl beq_iff_eq
  · exact skipsWhen_of_skipIf hroom rfl bne_iff_ne
  · exact skipsWhen_of_skipIf hroom rfl beq_iff_eq
  · exact skipsWhen_of_skipIf hroom rfl bne_iff_ne

end Sys2Proof.Machine

/-! ### Windows of the form `[-2^k, 2^k - 1]` (41_alu R124 to R126) -/

namespace Sys2Proof.Machine

/-- From bit `k` up, all bits of the two's-complement form are one sign bit. -/
def SignFrom (k : Nat) (a : Int) : Prop := ∃ sign : Bool, ∀ j ≥ k, a.testBit j = sign

/-- The bits of a natural number are constant from bit `k` up exactly below `2^k`: far enough up they are zeros. -/
theorem exists_testBit_eq_iff_lt (k m : Nat) : (∃ sign : Bool, ∀ j ≥ k, m.testBit j = sign) ↔ m < 2 ^ k := by
  constructor
  · rintro ⟨sign, h⟩
    have hm : m < 2 ^ (k + m) := m.lt_two_pow_self.trans_le (Nat.pow_le_pow_right (by decide) (Nat.le_add_left m k))
    have hsign : sign = false := (h (k + m) (Nat.le_add_right k m)).symm.trans (Nat.testBit_lt_two_pow hm)
    exact Nat.lt_pow_two_of_testBit m fun j hj => (h j hj).trans hsign
  · exact fun hm => ⟨false, fun j hj =>
      Nat.testBit_lt_two_pow (hm.trans_le (Nat.pow_le_pow_right (by decide) hj))⟩

/-- The window `[-2^k, 2^k - 1]` holds the integers whose two's-complement form fits in `k` bits and a sign. -/
theorem signFrom_iff (k : Nat) (a : Int) : SignFrom k a ↔ -2 ^ k ≤ a ∧ a < 2 ^ k := by
  have hpow : ((2 ^ k : Nat) : Int) = 2 ^ k := by push_cast; rfl
  cases a with
  | ofNat m =>
    have hbits : SignFrom k (Int.ofNat m) ↔ m < 2 ^ k := exists_testBit_eq_iff_lt k m
    rw [hbits, ← hpow, Int.ofNat_eq_natCast]
    omega
  | negSucc m =>
    have hbits : SignFrom k (Int.negSucc m) ↔ m < 2 ^ k := by
      rw [← exists_testBit_eq_iff_lt]
      constructor <;> rintro ⟨sign, h⟩ <;> refine ⟨!sign, fun j hj => ?_⟩
      · rw [← h j hj, Int.testBit, Bool.not_not]
      · rw [← h j hj, Int.testBit]
    rw [hbits, ← hpow]
    omega

theorem SignFrom.intAnd {k : Nat} {a b : Int} : SignFrom k a → SignFrom k b → SignFrom k (intAnd a b)
  | ⟨sa, ha⟩, ⟨sb, hb⟩ => ⟨sa && sb, fun j hj => by rw [testBit_intAnd, ha j hj, hb j hj]⟩

theorem SignFrom.intOr {k : Nat} {a b : Int} : SignFrom k a → SignFrom k b → SignFrom k (intOr a b)
  | ⟨sa, ha⟩, ⟨sb, hb⟩ => ⟨sa || sb, fun j hj => by rw [testBit_intOr, ha j hj, hb j hj]⟩

theorem SignFrom.intXor {k : Nat} {a b : Int} : SignFrom k a → SignFrom k b → SignFrom k (intXor a b)
  | ⟨sa, ha⟩, ⟨sb, hb⟩ => ⟨sa ^^ sb, fun j hj => by rw [testBit_intXor, ha j hj, hb j hj]⟩

/-- Settles O8: where the bits of both operands are constant, so are those of the result. -/
theorem bitwiseStaysInWindow : Obligations.BitwiseStaysInWindow := by
  unfold Obligations.BitwiseStaysInWindow
  intro k a b ha hb
  rw [← signFrom_iff] at ha hb
  simp only [← signFrom_iff]
  exact ⟨ha.intAnd hb, ha.intOr hb, ha.intXor hb⟩

end Sys2Proof.Machine

/-! ### Registers and ALU (41_alu R120 to R132) -/

namespace Sys2Proof.Machine

open Sys2Proof.Claims

/-! #### Instructions that write one register -/

/-- An instruction that ends in one register write does what the window says of its value (10_state R22). -/
theorem writesReg_of_setReg {i : Instr} {s : State} {x : RegIdx} {value : Int}
    (hexec : exec i s = s.complete (s.setReg x value)) : WritesReg i s x value := by
  constructor <;> intro h
  · rw [Completes, hexec, s.setReg_ok x value h, State.complete_ok]
  · rw [Faults, hexec, s.setReg_error x value h]
    rfl

/-- On natural numbers `intAnd` is the bitwise AND of Lean's `Nat`. -/
theorem intAnd_natCast (m n : Nat) : intAnd m n = ((m &&& n : Nat) : Int) := rfl

/-- The values of `r AND kk` over all draws are those whose set bits are among `kk`'s: each is its own draw. -/
theorem exists_draw_and_eq_iff {kk : Nat} (hkk : kk ≤ 0xFF) (value : Nat) :
    (∃ r : Draw, r.val &&& kk = value) ↔ value &&& kk = value := by
  constructor
  · rintro ⟨r, rfl⟩
    rw [Nat.and_assoc, Nat.and_self]
  · intro h
    have hle : value ≤ kk := h ▸ Nat.and_le_right
    exact ⟨⟨value, by omega⟩, h⟩

/-- Settles O24: one register write, and `exists_draw_and_eq_iff` for the possible results. -/
theorem randomMasksDraw : Obligations.RandomMasksDraw := by
  unfold Obligations.RandomMasksDraw
  refine ⟨fun x kk h => decodeEncode (.random x kk) (decide_eq_true h), fun s x kk => ?_,
    fun kk hkk => exists_draw_and_eq_iff hkk⟩
  rw [← intAnd_natCast]
  exact writesReg_of_setReg rfl

/-- Settles O17: one register write each, of the immediate and of the exact sum. -/
theorem setAndAdd : Obligations.SetAndAdd := by
  unfold Obligations.SetAndAdd
  exact ⟨fun x kk h => decodeEncode (.set x kk) (decide_eq_true h),
    fun x kk h => decodeEncode (.add x kk) (decide_eq_true h),
    fun _ _ _ => ⟨writesReg_of_setReg rfl, writesReg_of_setReg rfl⟩⟩

/-- Settles O18: the value that is copied is already in the window. -/
theorem setRCopies : Obligations.SetRCopies := by
  unfold Obligations.SetRCopies
  refine ⟨fun x y => decodeEncode (.setR x y) rfl, fun s x y hregs => ?_⟩
  have hwrites : WritesReg (.setR x y) s x (s.reg y) := writesReg_of_setReg rfl
  exact hwrites.1 (hregs y)

/-- Settles O19: one register write each, of the bitwise result. -/
theorem bitwiseInstructions : Obligations.BitwiseInstructions := by
  unfold Obligations.BitwiseInstructions
  exact ⟨fun x y => decodeEncode (.binOr x y) rfl, fun x y => decodeEncode (.binAnd x y) rfl,
    fun x y => decodeEncode (.binXor x y) rfl,
    fun _ _ _ => ⟨writesReg_of_setReg rfl, writesReg_of_setReg rfl, writesReg_of_setReg rfl⟩⟩

/-- Settles O20: one register write each, of the exact sum and of the exact difference. -/
theorem sumAndDifference : Obligations.SumAndDifference := by
  unfold Obligations.SumAndDifference
  exact ⟨fun x y => decodeEncode (.addR x y) rfl, fun x y => decodeEncode (.sub12 x y) rfl,
    fun _ _ _ => ⟨writesReg_of_setReg rfl, writesReg_of_setReg rfl⟩⟩

/-- Settles O21: the value written, `V[y] - V[y]`, is 0, which a legal window holds. -/
theorem sub21IsZero : Obligations.Sub21IsZero := by
  unfold Obligations.Sub21IsZero
  refine ⟨fun x y => decodeEncode (.sub21 x y) rfl, fun s x y ⟨hmin, hmax⟩ => ?_⟩
  have hwrites : WritesReg (.sub21 x y) s x (s.reg y - s.reg y) := writesReg_of_setReg rfl
  rw [Int.sub_self] at hwrites
  exact hwrites.1 ⟨hmin.le, hmax.le⟩

/-! #### The shifts: a register, then VF -/

/-- A legal window holds every bit (00_scope R7). -/
theorem State.WindowLegal.inWindow_bitOf {s : State} (h : s.WindowLegal) (k : Nat) (v : Int) :
    s.inWindow (bitOf k v) := by
  obtain ⟨hmin, hmax⟩ := h
  have hbit : 0 ≤ bitOf k v ∧ bitOf k v < 2 := ⟨Int.emod_nonneg _ (by decide), Int.emod_lt_of_pos _ (by decide)⟩
  constructor <;> omega

/-- A shift writes its result, then the bit moved out to VF (10_state R23). -/
theorem exec_shiftL (x y : RegIdx) (s : State) :
    exec (.shiftL x y) s = s.complete (s.setReg x (s.reg x * 2) >>= fun t => t.setReg vf (bitOf 15 (s.reg x))) := rfl

theorem exec_shiftR (x y : RegIdx) (s : State) :
    exec (.shiftR x y) s = s.complete (s.setReg x (s.reg x / 2) >>= fun t => t.setReg vf (bitOf 0 (s.reg x))) := rfl

/-- Two register writes of values of the window complete: the window does not change between them. -/
theorem State.complete_setReg_setReg (s : State) (x y : RegIdx) {a b : Int} (ha : s.inWindow a) (hb : s.inWindow b) :
    s.complete (s.setReg x a >>= fun t => t.setReg y b) = .next { s with v := (s.v.set x.val a).set y.val b } := by
  rw [s.setReg_ok x a ha]
  exact congrArg s.complete (State.setReg_ok { s with v := s.v.set x.val a } y b hb)

/-- Settles O22: a legal window holds the flag, so the write of the doubled value alone can fault. -/
theorem shiftLeft : Obligations.ShiftLeft := by
  unfold Obligations.ShiftLeft
  refine ⟨fun x y => decodeEncode (.shiftL x y) rfl, fun s x y hwindow => ⟨fun h => ?_, fun h => ?_⟩⟩
  · rw [Completes, exec_shiftL]
    exact s.complete_setReg_setReg x vf h (hwindow.inWindow_bitOf 15 _)
  · rw [Faults, exec_shiftL, s.setReg_error x _ h]
    rfl

/-- Settles O23: half of a value lies between it and 0, both in the window. -/
theorem shiftRight : Obligations.ShiftRight := by
  unfold Obligations.ShiftRight
  refine ⟨fun x y => decodeEncode (.shiftR x y) rfl, fun s x y hwindow hregs => ?_⟩
  have hhalf : s.inWindow (s.reg x / 2) := by
    obtain ⟨hmin, hmax⟩ := hwindow
    obtain ⟨hlo, hhi⟩ := hregs x
    constructor <;> omega
  have hbit : bitOf 0 (s.reg x) = s.reg x % 2 := by rw [bitOf, Int.pow_zero, Int.ediv_one]
  rw [Completes, exec_shiftR, s.complete_setReg_setReg x vf hhalf (hwindow.inWindow_bitOf 0 _), hbit]
  rfl

end Sys2Proof.Machine

/-! ### Index and memory (42_index_memory R140 to R146) -/

namespace Sys2Proof.Machine

open Sys2Proof.Claims

/-! #### Results in sequence, and runs of registers -/

theorem ok_bind {α β : Type} (a : α) (f : α → Except Cause β) : Except.ok a >>= f = f a := rfl

theorem error_bind {α β : Type} (c : Cause) (f : α → Except Cause β) : Except.error c >>= f = .error c := rfl

theorem regsUpTo_pairwise_lt (x : RegIdx) : (regsUpTo x).Pairwise (· < ·) :=
  (List.pairwise_lt_finRange 16).sublist (List.take_sublist _ _)

/-- The run up to `x` cut at one of its registers: those before it are the lower ones. -/
theorem exists_regsUpTo_eq {k x : RegIdx} (h : k ≤ x) :
    ∃ before after, regsUpTo x = before ++ k :: after ∧ ∀ j ∈ before, j < k := by
  obtain ⟨before, after, heq⟩ := List.append_of_mem (mem_regsUpTo.mpr h)
  obtain ⟨-, -, hlt⟩ := List.pairwise_append.mp (heq ▸ regsUpTo_pairwise_lt x)
  exact ⟨before, after, heq, fun j hj => hlt j hj k List.mem_cons_self⟩

/-! #### Writing `I` -/

/-- An instruction that ends by writing a word to `I` completes. -/
theorem State.complete_setIndex_word (s : State) {p : Word} {x : Int} (h : (p.toNat : Int) = x) :
    s.complete (s.setIndex x) = .next { s with index := p } := by
  rw [s.setIndex_word p x h, State.complete_ok]

/-- Settles O25: a word is always a value that `I` can hold. -/
theorem setIndexSetsI : Obligations.SetIndexSetsI := by
  unfold Obligations.SetIndexSetsI
  exact ⟨fun nnn h => decodeEncode (.setIndex nnn) (decide_eq_true h), fun s _ => s.complete_setIndex_word rfl⟩

/-- Settles O26: the write of `I` checks the exact sum. -/
theorem addToIndexAdds : Obligations.AddToIndexAdds := by
  unfold Obligations.AddToIndexAdds
  refine ⟨fun x => decodeEncode (.addToIndex x) rfl, fun s x => ⟨fun sum h => ?_, fun h => ?_⟩⟩
  · exact s.complete_setIndex_word h
  · exact congrArg s.complete (s.setIndex_error _ h)

/-- FontCharacter checks the register, then writes the glyph's address to `I` (R143). -/
theorem exec_fontCharacter (x : RegIdx) (s : State) :
    exec (.fontCharacter x) s = s.complete (
      if s.reg x < 0 ∨ s.reg x > 15 then .error (.fontRange (s.reg x)) else s.setIndex (s.reg x * 5 + 0x50)) := rfl

/-- Settles O27: the address of a glyph, at most `0x50 + 5 * 15`, is a word. -/
theorem fontCharacterAddress : Obligations.FontCharacterAddress := by
  unfold Obligations.FontCharacterAddress
  refine ⟨fun x => decodeEncode (.fontCharacter x) rfl, fun s x => ⟨fun d hd => ?_, fun h => ?_⟩⟩
  · have haddr : ((BitVec.ofNat 16 (0x50 + 5 * d.val)).toNat : Int) = s.reg x * 5 + 0x50 := by
      rw [BitVec.toNat_ofNat]
      omega
    rw [Completes, exec_fontCharacter, if_neg (by omega)]
    exact s.complete_setIndex_word haddr
  · rw [Faults, exec_fontCharacter, if_pos h]
    rfl

/-! #### HexToDecimalToIndex -/

/-- HexToDecimalToIndex of a byte stores its three digits one after another (R144). -/
theorem exec_hexToDecimalToIndex {s : State} {x : RegIdx} {value : Nat} (hx : s.reg x = value) (hvalue : value ≤ 255) :
    exec (.hexToDecimalToIndex x) s = s.complete (
      s.memWrite s.index.toNat (value / 100 : Nat) >>= fun t =>
        t.memWrite (s.index.toNat + 1) (value / 10 % 10 : Nat) >>= fun u =>
          u.memWrite (s.index.toNat + 2) (value % 10 : Nat)) := by
  have hin : ¬ (s.reg x < 0 ∨ s.reg x > Params.bcdMax) := by rw [Params.bcdMax]; omega
  push_cast
  rw [← hx]
  exact congrArg s.complete (if_neg hin)

theorem faults_hexToDecimalToIndex_bcdRange {s : State} {x : RegIdx} (h : s.reg x < 0 ∨ 255 < s.reg x) :
    Faults (.hexToDecimalToIndex x) s (.bcdRange (s.reg x)) :=
  congrArg s.complete (if_pos h)

/-- A number below 256 is the value of its byte. -/
theorem toNat_ofNat_byte {n : Nat} (h : n ≤ 255) : (BitVec.ofNat 8 n).toNat = n := by
  rw [BitVec.toNat_ofNat]
  omega

theorem State.memWrite_nat (s : State) {a n : Nat} (ha : a ≤ 4095) (hn : n ≤ 255) :
    s.memWrite a n = .ok { s with mem := s.mem.write a (BitVec.ofNat 8 n) } :=
  s.memWrite_byte a _ _ ha (congrArg Nat.cast (toNat_ofNat_byte hn))

/-- Three bytes written at three addresses: a read sees them, and every other byte as before. -/
theorem Memory.read_write_three {m : Memory} (hm : m.wf = true) {a : Nat} (ha : a + 2 ≤ 4095) (b₀ b₁ b₂ : Byte)
    (x : Nat) :
    (((m.write a b₀).write (a + 1) b₁).write (a + 2) b₂).read x =
      if x = a + 2 then b₂ else if x = a + 1 then b₁ else if x = a then b₀ else m.read x := by
  have h₀ : (m.write a b₀).wf = true := Memory.wf_write b₀ hm (by omega)
  have h₁ : ((m.write a b₀).write (a + 1) b₁).wf = true := Memory.wf_write b₁ h₀ (by omega)
  rw [Memory.read_write h₁, Memory.read_write h₀, Memory.read_write hm]

/-- HexToDecimalToIndex of a byte with room for three digits writes hundreds, tens and units. -/
theorem completes_hexToDecimalToIndex {s : State} {x : RegIdx} {value : Nat} (hx : s.reg x = value)
    (hvalue : value ≤ 255) (hroom : s.index.toNat + 2 ≤ 4095) :
    Completes (.hexToDecimalToIndex x) s { s with
      mem := ((s.mem.write s.index.toNat (BitVec.ofNat 8 (value / 100))).write (s.index.toNat + 1)
        (BitVec.ofNat 8 (value / 10 % 10))).write (s.index.toNat + 2) (BitVec.ofNat 8 (value % 10)) } := by
  rw [Completes, exec_hexToDecimalToIndex hx hvalue, s.memWrite_nat (by omega) (by omega), ok_bind,
    State.memWrite_nat _ (by omega) (by omega), ok_bind, State.memWrite_nat _ hroom (by omega), State.complete_ok]

/-- Without that room it raises `MEM_BOUNDS` at the first address outside: that of the first, second or third store. -/
theorem faults_hexToDecimalToIndex_memBounds {s : State} {x : RegIdx} {value : Nat} (hx : s.reg x = value)
    (hvalue : value ≤ 255) (hroom : 4095 < s.index.toNat + 2) :
    Faults (.hexToDecimalToIndex x) s (.memBounds (max s.index.toNat 4096)) := by
  rw [Faults, exec_hexToDecimalToIndex hx hvalue]
  obtain hfirst | hsecond | hthird :
      4096 ≤ s.index.toNat ∨ s.index.toNat + 1 = 4096 ∨ s.index.toNat + 2 = 4096 := by omega
  · rw [s.memWrite_bounds _ _ hfirst, error_bind, max_eq_left hfirst]
    rfl
  · rw [s.memWrite_nat (by omega) (by omega), ok_bind, State.memWrite_bounds _ _ _ hsecond.ge, error_bind, hsecond,
      max_eq_right (by omega)]
    rfl
  · rw [s.memWrite_nat (by omega) (by omega), ok_bind, State.memWrite_nat _ (by omega) (by omega), ok_bind,
      State.memWrite_bounds _ _ _ hthird.ge, hthird, max_eq_right (by omega)]
    rfl

/-- Settles O28: three stores in range, or the first of them that is outside memory. -/
theorem decimalDigits : Obligations.DecimalDigits := by
  unfold Obligations.DecimalDigits
  refine ⟨fun x => decodeEncode (.hexToDecimalToIndex x) rfl, fun s x =>
    ⟨fun value hx hvalue hroom hm => ?_, faults_hexToDecimalToIndex_bcdRange, fun hlo hhi hroom => ?_⟩⟩
  · refine ⟨_, completes_hexToDecimalToIndex hx hvalue hroom, ?_, ?_, ?_, fun a ha => ?_⟩ <;>
      rw [Memory.read_write_three hm hroom]
    · rw [if_neg (by omega), if_neg (by omega), if_pos rfl, toNat_ofNat_byte (by omega)]
    · rw [if_neg (by omega), if_pos rfl, toNat_ofNat_byte (by omega)]
    · rw [if_pos rfl, toNat_ofNat_byte (by omega)]
    · rw [if_neg (by omega), if_neg (by omega), if_neg (by omega)]
  · obtain ⟨value, hx⟩ := Int.eq_ofNat_of_zero_le hlo
    exact faults_hexToDecimalToIndex_memBounds hx (by omega) hroom

/-! #### StoreRegs -/

/-- The loop of StoreRegs stores its first register, then runs on. -/
theorem State.storeEach_cons (s : State) (k : RegIdx) (ks : List RegIdx) :
    s.storeEach (k :: ks) = s.memWrite (s.index.toNat + k.val) (s.reg k) >>= fun t => t.storeEach ks := rfl

theorem State.storeEach_append (ks js : List RegIdx) (s : State) :
    s.storeEach (ks ++ js) = s.storeEach ks >>= fun t => t.storeEach js := by
  induction ks generalizing s with
  | nil => rfl
  | cons k ks ih => simp only [List.cons_append, State.storeEach_cons, bind_assoc, ih]

/-- `m` is the memory of `s` with each listed register's value stored at `I` plus its number. -/
structure StoredRun (s : State) (ks : List RegIdx) (m : Memory) : Prop where
  stored : ∀ k ∈ ks, ((m.read (s.index.toNat + k.val)).toNat : Int) = s.reg k
  others : ∀ a, (∀ k ∈ ks, a ≠ s.index.toNat + k.val) → m.read a = s.mem.read a

/-- One more register stored before the run: a later store to its address is of the same register. -/
theorem StoredRun.cons {s : State} {k : RegIdx} {ks : List RegIdx} {b : Byte} {m : Memory} (hm : s.mem.wf = true)
    (hb : (b.toNat : Int) = s.reg k)
    (h : StoredRun { s with mem := s.mem.write (s.index.toNat + k.val) b } ks m) : StoredRun s (k :: ks) m where
  stored := by
    refine List.forall_mem_cons.mpr ⟨?_, h.stored⟩
    by_cases hk : k ∈ ks
    · exact h.stored k hk
    · rw [h.others (s.index.toNat + k.val) ?_, Memory.read_write hm, if_pos rfl, hb]
      intro j hj haddr
      exact hk (Fin.ext (Nat.add_left_cancel haddr) ▸ hj)
  others := by
    intro a ha
    obtain ⟨hhead, htail⟩ := List.forall_mem_cons.mp ha
    rw [h.others a htail, Memory.read_write hm, if_neg hhead]

/-- A run of storable registers is stored, without a fault. -/
theorem State.storeEach_ok (ks : List RegIdx) (s : State) (h : ∀ k ∈ ks, Storable s k) :
    ∃ m, s.storeEach ks = .ok { s with mem := m } ∧ (s.mem.wf = true → StoredRun s ks m) := by
  induction ks generalizing s with
  | nil => exact ⟨s.mem, rfl, fun _ => ⟨nofun, fun _ _ => rfl⟩⟩
  | cons k ks ih =>
    obtain ⟨⟨haddr, hlo, hhi⟩, htail⟩ := List.forall_mem_cons.mp h
    obtain ⟨n, hn⟩ := Int.eq_ofNat_of_zero_le hlo
    have hbyte : (BitVec.ofNat 8 n).toNat = n := toNat_ofNat_byte (by omega)
    obtain ⟨m, hrun, hstored⟩ := ih { s with mem := s.mem.write (s.index.toNat + k.val) (BitVec.ofNat 8 n) } htail
    refine ⟨m, ?_, fun hm => (hstored (Memory.wf_write _ hm haddr)).cons hm (by rw [hbyte, hn])⟩
    rw [State.storeEach_cons, hn, s.memWrite_nat haddr (by omega), ok_bind, hrun]

theorem completes_storeRegs {s : State} {x : RegIdx} (h : ∀ k ≤ x, Storable s k) :
    ∃ m, Completes (.storeRegs x) s { s with mem := m } ∧ (s.mem.wf = true → StoredRun s (regsUpTo x) m) := by
  obtain ⟨m, hrun, hstored⟩ := s.storeEach_ok (regsUpTo x) fun k hk => h k (mem_regsUpTo.mp hk)
  exact ⟨m, congrArg s.complete hrun, hstored⟩

/-- StoreRegs takes the fault of the lowest register whose store fails; the stores before it have changed nothing but
memory, which that store does not look at. -/
theorem faults_storeRegs {s : State} {k x : RegIdx} {c : Cause} (hk : k ≤ x) (hbefore : ∀ j < k, Storable s j)
    (hfault : ∀ m, State.memWrite { s with mem := m } (s.index.toNat + k.val) (s.reg k) = .error c) :
    Faults (.storeRegs x) s c := by
  obtain ⟨before, after, heq, hlt⟩ := exists_regsUpTo_eq hk
  obtain ⟨m, hrun, -⟩ := s.storeEach_ok before fun j hj => hbefore j (hlt j hj)
  have hhead : State.storeEach { s with mem := m } (k :: after) = .error c := congrArg (· >>= _) (hfault m)
  have hloop : s.storeEach (regsUpTo x) = .error c := by
    rw [heq, State.storeEach_append, hrun, ok_bind, hhead]
  exact congrArg s.complete hloop

/-- Settles O29: the run up to `x` is stored, or its lowest register that is not storable decides. -/
theorem storeRegsStores : Obligations.StoreRegsStores := by
  unfold Obligations.StoreRegsStores
  refine ⟨fun x => decodeEncode (.storeRegs x) rfl, fun s x => ⟨fun h hm => ?_, fun k hk hbefore => ⟨?_, ?_⟩⟩⟩
  · obtain ⟨m, hexec, hstored⟩ := completes_storeRegs h
    refine ⟨m, hexec, fun k hk => (hstored hm).stored k (mem_regsUpTo.mpr hk), fun a ha => ?_⟩
    refine (hstored hm).others a fun k hk haddr => ?_
    have hkx : k.val ≤ x.val := mem_regsUpTo.mp hk
    omega
  · exact fun haddr => faults_storeRegs hk hbefore fun m => State.memWrite_bounds _ _ _ haddr
  · exact fun haddr hvalue => faults_storeRegs hk hbefore fun m => State.memWrite_value _ _ _ haddr hvalue

/-! #### LoadRegs -/

/-- Byte `k` of a LoadRegs can be loaded: its address is in memory and the window reaches up to its value. -/
abbrev Loadable (s : State) (k : RegIdx) : Prop :=
  s.index.toNat + k.val ≤ 4095 ∧ ((s.mem.read (s.index.toNat + k.val)).toNat : Int) ≤ s.regMax

/-- The loop of LoadRegs reads the byte of its first register, writes it, then runs on. -/
theorem State.loadEach_cons (s : State) (k : RegIdx) (ks : List RegIdx) :
    s.loadEach (k :: ks) = s.memRead (s.index.toNat + k.val) >>= fun b =>
      s.setReg k b.toNat >>= fun t => t.loadEach ks := rfl

theorem State.loadEach_append (ks js : List RegIdx) (s : State) :
    s.loadEach (ks ++ js) = s.loadEach ks >>= fun t => t.loadEach js := by
  induction ks generalizing s with
  | nil => rfl
  | cons k ks ih => simp only [List.cons_append, State.loadEach_cons, bind_assoc, ih]

/-- A run of loads that completes has changed the listed registers alone. -/
theorem loads_of_loadEach {ks : List RegIdx} {s t : State} (h : s.loadEach ks = .ok t) : Shape.loads ks s t := by
  rcases yields_loadEach ks s with ⟨u, hu, e⟩ | ⟨c, -, e⟩ <;> rw [h] at e <;> cases e
  exact hu

/-- A run of loadable registers is loaded, without a fault. -/
theorem State.loadEach_ok (ks : List RegIdx) (s : State) (hmin : s.regMin ≤ 0) (h : ∀ k ∈ ks, Loadable s k) :
    ∃ t, s.loadEach ks = .ok t ∧ ∀ k ∈ ks, t.reg k = (s.mem.read (s.index.toNat + k.val)).toNat := by
  induction ks generalizing s with
  | nil => exact ⟨s, rfl, nofun⟩
  | cons k ks ih =>
    obtain ⟨⟨haddr, hmax⟩, htail⟩ := List.forall_mem_cons.mp h
    obtain ⟨t, hrun, hloaded⟩ :=
      ih { s with v := s.v.set k.val (s.mem.read (s.index.toNat + k.val)).toNat } hmin htail
    refine ⟨t, ?_, List.forall_mem_cons.mpr ⟨?_, hloaded⟩⟩
    · rw [State.loadEach_cons, s.memRead_ok _ haddr, ok_bind,
        s.setReg_ok k _ ⟨hmin.trans (Int.natCast_nonneg _), hmax⟩, ok_bind, hrun]
    · by_cases hk : k ∈ ks
      · exact hloaded k hk
      · obtain ⟨-, hothers, -⟩ := loads_of_loadEach hrun
        rw [hothers k hk, State.reg_set_self]

theorem completes_loadRegs {s : State} {x : RegIdx} (hmin : s.regMin ≤ 0) (h : ∀ k ≤ x, Loadable s k) :
    ∃ t, Completes (.loadRegs x) s t ∧ Shape.loads (regsUpTo x) s t
      ∧ ∀ k ≤ x, t.reg k = (s.mem.read (s.index.toNat + k.val)).toNat := by
  obtain ⟨t, hrun, hloaded⟩ := s.loadEach_ok (regsUpTo x) hmin fun k hk => h k (mem_regsUpTo.mp hk)
  exact ⟨t, congrArg s.complete hrun, loads_of_loadEach hrun, fun k hk => hloaded k (mem_regsUpTo.mpr hk)⟩

/-- LoadRegs takes the fault of the lowest register whose load fails; the loads before it have changed nothing but
registers, which that load does not look at. -/
theorem faults_loadRegs {s : State} {k x : RegIdx} {c : Cause} (hmin : s.regMin ≤ 0) (hk : k ≤ x)
    (hbefore : ∀ j < k, Loadable s j)
    (hfault : ∀ w, (State.memRead { s with v := w } (s.index.toNat + k.val) >>= fun b =>
      State.setReg { s with v := w } k b.toNat) = .error c) :
    Faults (.loadRegs x) s c := by
  obtain ⟨before, after, heq, hlt⟩ := exists_regsUpTo_eq hk
  obtain ⟨t, hrun, -⟩ := s.loadEach_ok before hmin fun j hj => hbefore j (hlt j hj)
  obtain ⟨w, rfl⟩ : ∃ w, t = { s with v := w } := ⟨t.v, (loads_of_loadEach hrun).1⟩
  have hhead : State.loadEach { s with v := w } (k :: after) = .error c := by
    rw [State.loadEach_cons, ← bind_assoc]
    exact congrArg (· >>= _) (hfault w)
  have hloop : s.loadEach (regsUpTo x) = .error c := by
    rw [heq, State.loadEach_append, hrun, ok_bind, hhead]
  exact congrArg s.complete hloop

/-- Settles O30: the run up to `x` is loaded, or its lowest register that is not loadable decides. -/
theorem loadRegsLoads : Obligations.LoadRegsLoads := by
  unfold Obligations.LoadRegsLoads
  refine ⟨fun x => decodeEncode (.loadRegs x) rfl, fun s x hmin =>
    ⟨fun hroom hmax => ?_, fun k hk hbefore => ⟨fun haddr => ?_, fun haddr hvalue => ?_⟩⟩⟩
  · have hload : ∀ k ≤ x, Loadable s k := fun k hk => ⟨(Nat.add_le_add_left hk _).trans hroom, hmax k hk⟩
    obtain ⟨t, hexec, ⟨hframe, hothers, -⟩, hloaded⟩ := completes_loadRegs hmin hload
    exact ⟨t, hexec, hframe, hloaded, fun k hk => hothers k (mt mem_regsUpTo.mp hk.not_ge)⟩
  · refine faults_loadRegs hmin hk hbefore fun w => ?_
    rw [State.memRead_error _ _ haddr, error_bind]
  · refine faults_loadRegs hmin hk hbefore fun w => ?_
    rw [State.memRead_ok _ _ haddr, ok_bind]
    exact State.setReg_error _ k _ (.inr hvalue)

/-- Settles O31: the loads read the bytes that the stores left, and the window holds every byte. -/
theorem storeThenLoad : Obligations.StoreThenLoad := by
  unfold Obligations.StoreThenLoad
  intro s t x v hm ⟨hmin, hmax⟩ h hexec
  obtain ⟨m, hcompletes, hstored⟩ := completes_storeRegs h
  obtain rfl := Host.Outcome.next.inj (hcompletes.symm.trans hexec)
  have hbyte : ∀ k ≤ x, ((m.read (s.index.toNat + k.val)).toNat : Int) = s.reg k :=
    fun k hk => (hstored hm).stored k (mem_regsUpTo.mpr hk)
  have hload : ∀ k ≤ x, Loadable { s with mem := m, v := v } k := fun k hk => by
    obtain ⟨haddr, -, hhi⟩ := h k hk
    exact ⟨haddr, (hbyte k hk).trans_le (hhi.trans hmax)⟩
  obtain ⟨u, hloads, -, hloaded⟩ := completes_loadRegs (s := { s with mem := m, v := v }) hmin.le hload
  exact ⟨u, hloads, fun k hk => (hloaded k hk).trans (hbyte k hk)⟩

end Sys2Proof.Machine

/-! ### Display (43_display R160 to R163) -/

namespace Sys2Proof.Machine

open Sys2Proof.Claims

/-- Settles O32: the cleared framebuffer has no lit pixel. -/
theorem clearScreenClears : Obligations.ClearScreenClears := by
  unfold Obligations.ClearScreenClears
  exact ⟨decodeEncode .clearScreen rfl, fun s =>
    ⟨_, rfl, fun x _ y _ => Framebuffer.pixel_cleared x y⟩⟩

/-! #### The start coordinates -/

/-- AND with `2^k - 1` keeps the low `k` bits, which are the remainder modulo `2^k`, of a negative integer too. -/
theorem intAnd_two_pow_sub_one (v : Int) (k : Nat) : intAnd v ((2 ^ k - 1 : Nat) : Int) = v % (2 ^ k : Nat) := by
  cases v with
  | ofNat m =>
    rw [Int.ofNat_eq_natCast, intAnd_natCast, Nat.and_two_pow_sub_one_eq_mod]
    exact Int.natCast_emod m (2 ^ k)
  | negSucc m =>
    have hrem : m % 2 ^ k < 2 ^ k := Nat.mod_lt m (Nat.two_pow_pos k)
    have hbits : (2 ^ k - 1) ^^^ ((2 ^ k - 1) &&& m) = 2 ^ k - (m % 2 ^ k + 1) := by
      refine Nat.eq_of_testBit_eq fun i => ?_
      rw [testBit_xor_and, Nat.testBit_two_pow_sub_one, Nat.testBit_two_pow_sub_succ hrem, Nat.testBit_mod_two_pow]
      cases decide (i < k) <;> rfl
    calc intAnd (Int.negSucc m) ((2 ^ k - 1 : Nat) : Int)
        = ((2 ^ k - (m % 2 ^ k + 1) : Nat) : Int) := congrArg Nat.cast hbits
      _ = Int.negSucc m % (2 ^ k : Nat) := by
        rw [Int.negSucc_emod m (by exact_mod_cast Nat.two_pow_pos k), ← Int.natCast_emod]
        omega

theorem startColumn_eq (v : Int) : startColumn v = (v % 64).toNat :=
  congrArg Int.toNat (intAnd_two_pow_sub_one v 6)

theorem startRow_eq (v : Int) : startRow v = (v % 32).toNat :=
  congrArg Int.toNat (intAnd_two_pow_sub_one v 5)

/-- Settles O9: 63 and 31 are `2^6 - 1` and `2^5 - 1`. -/
theorem startCoordinates : Obligations.StartCoordinates := by
  unfold Obligations.StartCoordinates
  intro v
  rw [startColumn_eq, startRow_eq]
  exact ⟨Int.toNat_of_nonneg (Int.emod_nonneg v (by decide)), Int.toNat_of_nonneg (Int.emod_nonneg v (by decide))⟩

/-! #### Drawing a set of pixels -/

/-- `after` is `before` with the pixels of a set toggled, each once, where they are in the grid; its flag tells whether
one of them was lit, or the flag was set before. -/
structure Draws (sprite : Nat → Nat → Bool) (before after : Canvas) : Prop where
  pixel : ∀ px < 64, ∀ py < 32,
    Framebuffer.pixel after.1 px py = (Framebuffer.pixel before.1 px py ^^ sprite px py)
  flag : after.2 = true ↔ before.2 = true
    ∨ ∃ px < 64, ∃ py < 32, Framebuffer.pixel before.1 px py = true ∧ sprite px py = true

/-- Where no pixel of the set is in the grid, drawing changes nothing. -/
theorem Draws.refl {sprite : Nat → Nat → Bool} (canvas : Canvas)
    (h : ∀ px < 64, ∀ py < 32, sprite px py = false) : Draws sprite canvas canvas where
  pixel px hx py hy := by rw [h px hx py hy, Bool.xor_false]
  flag := by
    refine ⟨.inl, fun hflag => hflag.resolve_right ?_⟩
    rintro ⟨px, hx, py, hy, -, hp⟩
    exact absurd ((h px hx py hy).symm.trans hp) nofun

/-- Two sets of pixels without a common one drawn in sequence are their union: the second meets its pixels as they were
before the first. -/
theorem Draws.trans {first second union : Nat → Nat → Bool} {a b c : Canvas} (h : Draws first a b)
    (h' : Draws second b c) (hunion : ∀ px py, union px py = (first px py || second px py))
    (hdisjoint : ∀ px py, second px py = true → first px py = false) : Draws union a c where
  pixel px hx py hy := by
    rw [h'.pixel px hx py hy, h.pixel px hx py hy, hunion]
    cases hq : second px py
    · rw [Bool.xor_false, Bool.or_false]
    · rw [hdisjoint px py hq, Bool.xor_false, Bool.false_or]
  flag := by
    have hmeets : ∀ px < 64, ∀ py < 32, second px py = true →
        Framebuffer.pixel b.1 px py = Framebuffer.pixel a.1 px py := by
      intro px hx py hy hq
      rw [h.pixel px hx py hy, hdisjoint px py hq, Bool.xor_false]
    simp only [h'.flag, h.flag, hunion, Bool.or_eq_true]
    constructor
    · rintro ((hflag | ⟨px, hx, py, hy, hlit, hp⟩) | ⟨px, hx, py, hy, hlit, hq⟩)
      · exact .inl hflag
      · exact .inr ⟨px, hx, py, hy, hlit, .inl hp⟩
      · exact .inr ⟨px, hx, py, hy, hmeets px hx py hy hq ▸ hlit, .inr hq⟩
    · rintro (hflag | ⟨px, hx, py, hy, hlit, hp | hq⟩)
      · exact .inl (.inl hflag)
      · exact .inl (.inr ⟨px, hx, py, hy, hlit, hp⟩)
      · exact .inr ⟨px, hx, py, hy, (hmeets px hx py hy hq).trans hlit, hq⟩

/-! #### The sprite, pixel by pixel, row by row -/

/-- The one pixel at column `x`, row `y`, when `bit` is set. -/
def pixelSprite (x y : Nat) (bit : Bool) (px py : Nat) : Bool := decide (px = x ∧ py = y) && bit

theorem draws_drawPixel (x y : Nat) (bit : Bool) (canvas : Canvas) :
    Draws (pixelSprite x y bit) canvas (drawPixel x y bit canvas) := by
  unfold drawPixel
  split
  · next hclipped =>
    refine .refl canvas fun px hx py hy => ?_
    rw [pixelSprite, decide_eq_false (by omega), Bool.false_and]
  · next hvisible =>
    have hx : x < 64 := by omega
    have hy : y < 32 := by omega
    cases bit with
    | false => exact .refl canvas fun px _ py _ => Bool.and_false _
    | true =>
      constructor
      · intro px _ py _
        rw [if_pos rfl, Framebuffer.pixel_setPixel _ hx hy, pixelSprite, Bool.and_true]
        by_cases hat : px = x ∧ py = y
        · rw [if_pos hat, decide_eq_true hat, Bool.xor_true, hat.1, hat.2]
        · rw [if_neg hat, decide_eq_false hat, Bool.xor_false]
      · simp only [if_pos, pixelSprite, Bool.or_eq_true, Bool.and_true, decide_eq_true_eq]
        refine or_congr_right ⟨fun hlit => ⟨x, hx, y, hy, hlit, rfl, rfl⟩, ?_⟩
        rintro ⟨_, _, _, _, hlit, rfl, rfl⟩
        exact hlit

/-- The first `m` columns of a sprite row drawn from column `x0` in row `y`. -/
def rowSprite (x0 y : Nat) (row : Byte) (m px py : Nat) : Bool :=
  decide (py = y ∧ x0 ≤ px ∧ px < x0 + m) && spriteBit row (px - x0)

theorem rowSprite_succ (x0 y : Nat) (row : Byte) (m px py : Nat) :
    rowSprite x0 y row (m + 1) px py =
      (rowSprite x0 y row m px py || pixelSprite (x0 + m) y (spriteBit row m) px py) := by
  unfold rowSprite pixelSprite
  by_cases hat : px = x0 + m ∧ py = y
  · obtain ⟨rfl, rfl⟩ := hat
    simp
  · rw [decide_eq_false hat, Bool.false_and, Bool.or_false]
    congr 2
    exact propext (by omega)

theorem draws_columns (x0 y : Nat) (row : Byte) (canvas : Canvas) (m : Nat) :
    Draws (rowSprite x0 y row m) canvas
      ((List.range m).foldl (fun acc c => drawPixel (x0 + c) y (spriteBit row c) acc) canvas) := by
  induction m with
  | zero =>
    refine .refl canvas fun px _ py _ => ?_
    rw [rowSprite, decide_eq_false (by omega), Bool.false_and]
  | succ m ih =>
    rw [List.range_succ, List.foldl_append]
    refine ih.trans (draws_drawPixel (x0 + m) y (spriteBit row m) _) (rowSprite_succ x0 y row m) fun px py h => ?_
    simp only [pixelSprite, Bool.and_eq_true, decide_eq_true_eq] at h
    rw [rowSprite, decide_eq_false (by omega), Bool.false_and]

theorem draws_drawRow (x0 y : Nat) (row : Byte) (canvas : Canvas) :
    Draws (rowSprite x0 y row 8) canvas (drawRow x0 y row canvas) := draws_columns x0 y row canvas 8

/-- Rows drawn below others. -/
theorem drawRows_append (x0 y : Nat) (rows rows' : List Byte) (canvas : Canvas) :
    drawRows x0 y (rows ++ rows') canvas = drawRows x0 (y + rows.length) rows' (drawRows x0 y rows canvas) := by
  induction rows generalizing y canvas with
  | nil => rfl
  | cons row rows ih =>
    rw [List.cons_append, List.length_cons, Nat.add_comm rows.length, ← Nat.add_assoc]
    exact ih (y + 1) (drawRow x0 y row canvas)

/-- The bytes of a sprite of `n` rows at `I`. -/
def State.spriteRows (s : State) (n : Nat) : List Byte := (List.range' s.index.toNat n).map s.mem.read

theorem State.spriteRows_succ (s : State) (n : Nat) :
    s.spriteRows (n + 1) = s.spriteRows n ++ [s.mem.read (s.index.toNat + n)] := by
  rw [State.spriteRows, List.range'_concat, List.map_append, Nat.one_mul]
  rfl

theorem State.length_spriteRows (s : State) (n : Nat) : (s.spriteRows n).length = n := by
  rw [State.spriteRows, List.length_map, List.length_range']

theorem spriteBit_eq (row : Byte) (c : Nat) : spriteBit row c = (row.toNat / 2 ^ (7 - c) % 2 == 1) :=
  Nat.testBit_eq_decide_div_mod_eq

theorem spriteAt_succ (s : State) (x0 y0 n px py : Nat) :
    spriteAt s x0 y0 (n + 1) px py =
      (spriteAt s x0 y0 n px py || rowSprite x0 (y0 + n) (s.mem.read (s.index.toNat + n)) 8 px py) := by
  unfold spriteAt rowSprite
  by_cases hrow : py = y0 + n
  · subst hrow
    simp [spriteBit_eq]
  · rw [decide_eq_false (p := py = y0 + n ∧ _) (hrow ·.1), Bool.false_and, Bool.or_false]
    congr 2
    exact propext (by omega)

/-- The rows read for a sprite draw what the statement calls the sprite. -/
theorem draws_spriteRows (s : State) (x0 y0 n : Nat) (canvas : Canvas) :
    Draws (spriteAt s x0 y0 n) canvas (drawRows x0 y0 (s.spriteRows n) canvas) := by
  induction n with
  | zero =>
    refine .refl canvas fun px _ py _ => ?_
    rw [spriteAt, decide_eq_false (by omega), Bool.false_and]
  | succ n ih =>
    rw [State.spriteRows_succ, drawRows_append, State.length_spriteRows]
    refine ih.trans (draws_drawRow x0 (y0 + n) _ _) (spriteAt_succ s x0 y0 n) fun px py h => ?_
    simp only [rowSprite, Bool.and_eq_true, decide_eq_true_eq] at h
    rw [spriteAt, decide_eq_false (by omega), Bool.false_and]

/-! #### Reading the rows, and the instruction -/

theorem State.readRows_succ (s : State) (addr n : Nat) :
    s.readRows addr (n + 1) = s.memRead addr >>= fun b =>
      s.readRows (addr + 1) n >>= fun bs => .ok (b :: bs) := rfl

theorem State.readRows_ok (s : State) (addr n : Nat) (h : n = 0 ∨ addr + n ≤ 4096) :
    s.readRows addr n = .ok ((List.range' addr n).map s.mem.read) := by
  induction n generalizing addr with
  | zero => rfl
  | succ n ih =>
    rw [State.readRows_succ, s.memRead_ok addr (by omega), ok_bind, ih (addr + 1) (by omega), ok_bind]
    rfl

/-- Rows that leave memory fault at the first address outside it. -/
theorem State.readRows_error (s : State) (addr n : Nat) (hn : 1 ≤ n) (h : 4095 < addr + n - 1) :
    s.readRows addr n = .error (.memBounds (max addr 4096)) := by
  induction n generalizing addr with
  | zero => omega
  | succ n ih =>
    rw [State.readRows_succ]
    by_cases haddr : addr ≤ 4095
    · rw [s.memRead_ok addr haddr, ok_bind, ih (addr + 1) (by omega) (by omega), error_bind,
        max_eq_right (by omega), max_eq_right (by omega)]
    · rw [s.memRead_error addr (by omega), error_bind, max_eq_left (by omega)]

/-- Display reads the rows, draws them and writes the collision flag to VF (R162). -/
theorem exec_display (x y : RegIdx) (n : Nat) (s : State) :
    exec (.display x y n) s = s.complete (s.readRows s.index.toNat n >>= fun rows =>
      State.setReg
        { s with fb := (drawRows (startColumn (s.reg x)) (startRow (s.reg y)) rows (s.fb, false)).1 } vf
        (collisionFlag (drawRows (startColumn (s.reg x)) (startRow (s.reg y)) rows (s.fb, false)).2)) := rfl

theorem faults_display {s : State} (x y : RegIdx) {n : Nat} (hn : 1 ≤ n) (h : 4095 < s.index.toNat + n - 1) :
    Faults (.display x y n) s (.memBounds (max s.index.toNat 4096)) := by
  rw [Faults, exec_display, s.readRows_error _ n hn h]
  rfl

theorem collisionFlag_cases (collision : Bool) : collisionFlag collision = 0 ∨ collisionFlag collision = 1 := by
  cases collision <;> decide

theorem collisionFlag_eq_one {collision : Bool} : collisionFlag collision = 1 ↔ collision = true := by
  cases collision <;> decide

/-- A canvas and its collision flag, which a legal window holds, become the framebuffer and VF. -/
theorem State.complete_canvas {s : State} (hwindow : s.WindowLegal) (canvas : Canvas) :
    s.complete (State.setReg { s with fb := canvas.1 } vf (collisionFlag canvas.2)) =
      .next { s with fb := canvas.1, v := s.v.set 15 (collisionFlag canvas.2) } := by
  have hflag : s.inWindow (collisionFlag canvas.2) := by
    obtain ⟨hmin, hmax⟩ := hwindow
    rcases collisionFlag_cases canvas.2 with e | e <;> rw [e] <;> constructor <;> omega
  exact congrArg s.complete (State.setReg_ok { s with fb := canvas.1 } vf _ hflag)

/-- With its rows in memory Display draws the sprite from the register values modulo the grid. -/
theorem completes_display {s : State} (x y : RegIdx) {n : Nat} (hwindow : s.WindowLegal)
    (h : n = 0 ∨ s.index.toNat + n ≤ 4096) :
    ∃ canvas : Canvas,
      Completes (.display x y n) s { s with fb := canvas.1, v := s.v.set 15 (collisionFlag canvas.2) }
      ∧ Draws (spriteAt s (s.reg x % 64).toNat (s.reg y % 32).toNat n) (s.fb, false) canvas := by
  refine ⟨_, ?_, draws_spriteRows s _ _ n _⟩
  rw [Completes, exec_display, s.readRows_ok _ n h, ok_bind, startColumn_eq, startRow_eq]
  exact State.complete_canvas hwindow _

/-- Settles O33: the canvas starts as the framebuffer with no collision, and what is drawn on it is the sprite. -/
theorem displayXors : Obligations.DisplayXors := by
  unfold Obligations.DisplayXors
  refine ⟨fun n h x y => decodeEncode (.display x y n) (decide_eq_true h),
    fun s x y n => faults_display x y, fun s x y n hwindow h => ?_⟩
  obtain ⟨canvas, hexec, hpixel, hflag⟩ := completes_display x y hwindow h
  refine ⟨canvas.1, collisionFlag canvas.2, hexec, hpixel, collisionFlag_cases _, ?_⟩
  rw [collisionFlag_eq_one, hflag]
  exact or_iff_right Bool.false_ne_true

end Sys2Proof.Machine

/-! ### Keys and timers (44_keys_timers R170 to R176) -/

namespace Sys2Proof.Machine

open Sys2Proof.Claims

/-! #### Instructions that begin with a check of a register's value -/

/-- A check that passes hands its result to the rest of the instruction. -/
theorem exec_of_ok_bind {i : Instr} {s : State} {α : Type} {check : Except Cause α}
    {rest : α → Except Cause State} {a : α}
    (hexec : exec i s = s.complete (check >>= rest)) (hcheck : check = .ok a) :
    exec i s = s.complete (rest a) := by
  rw [hexec, hcheck, ok_bind]

/-- A check that fails is the instruction's fault. -/
theorem faults_of_error_bind {i : Instr} {s : State} {α : Type} {check : Except Cause α}
    {rest : α → Except Cause State} {cause : Cause}
    (hexec : exec i s = s.complete (check >>= rest)) (hcheck : check = .error cause) : Faults i s cause := by
  rw [Faults, hexec, hcheck]
  rfl

/-! #### The key that a register names -/

theorem State.keyState_ok (s : State) {k : Fin 16} {value : Int} (h : value = k.val) :
    s.keyState value = .ok s.keys[k.val] := by
  subst h
  exact dif_neg (by omega)

theorem State.keyState_error (s : State) {value : Int} (h : value < 0 ∨ 15 < value) :
    s.keyState value = .error (.keyRange value) := dif_pos h

/-- A key skip reads the state of the key that `V[x]` names, then skips by it (R171, R172). -/
theorem exec_skipIfPressed (x : RegIdx) (s : State) :
    exec (.skipIfPressed x) s = s.complete (s.keyState (s.reg x) >>= fun pressed => s.skipIf pressed) := rfl

theorem exec_skipIfNotPressed (x : RegIdx) (s : State) :
    exec (.skipIfNotPressed x) s = s.complete (s.keyState (s.reg x) >>= fun pressed => s.skipIf (!pressed)) := rfl

/-- Settles O34: once the register names a key, a key skip is `skipIf` of its state (`skipsWhen_of_skipIf`). -/
theorem keySkips : Obligations.KeySkips := by
  unfold Obligations.KeySkips
  refine ⟨fun x => decodeEncode (.skipIfPressed x) rfl, fun x => decodeEncode (.skipIfNotPressed x) rfl,
    fun s x => ⟨fun k hk hroom => ⟨?_, ?_⟩, fun h => ⟨?_, ?_⟩⟩⟩
  · have hexec := exec_of_ok_bind (exec_skipIfPressed x s) (s.keyState_ok hk)
    exact skipsWhen_of_skipIf hroom hexec Iff.rfl
  · have hexec := exec_of_ok_bind (exec_skipIfNotPressed x s) (s.keyState_ok hk)
    exact skipsWhen_of_skipIf hroom hexec (Bool.not_eq_true' _).to_iff
  · exact faults_of_error_bind (exec_skipIfPressed x s) (s.keyState_error h)
  · exact faults_of_error_bind (exec_skipIfNotPressed x s) (s.keyState_error h)

/-! #### The lowest pressed key -/

theorem firstPressed_eq_find? (keys : Keys) : firstPressed keys = Fin.find? fun k => keys[k.val] :=
  Fin.find?_eq_find?_finRange.symm

theorem firstPressed_eq_some_iff {keys : Keys} {k : Fin 16} :
    firstPressed keys = some k ↔ keys[k.val] = true ∧ ∀ j < k, keys[j.val] = false := by
  rw [firstPressed_eq_find?, Fin.find?_eq_some_iff]

theorem firstPressed_eq_none_iff {keys : Keys} : firstPressed keys = none ↔ ∀ k : Fin 16, keys[k.val] = false := by
  rw [firstPressed_eq_find?, Fin.find?_eq_none_iff]

/-- With a key pressed GetPressedValue writes the lowest one to the register (R173). -/
theorem exec_getPressedValue_some {s : State} {k : Fin 16} (x : RegIdx) (h : firstPressed s.keys = some k) :
    exec (.getPressedValue x) s = s.complete (s.setReg x k.val) := by
  simp only [exec, execGetPressedValue, h]

/-- With none pressed it takes `pc` back to its own word, which the next cycle fetches again (R173). -/
theorem exec_getPressedValue_none {s : State} (x : RegIdx) (h : firstPressed s.keys = none) :
    exec (.getPressedValue x) s = s.complete (s.setPc (s.pc.toNat - 2)) := by
  simp only [exec, execGetPressedValue, h]

/-- Settles O35: the lowest pressed key decides between one register write and one write of `pc`, which does not wrap
from 2 up. -/
theorem keyWait : Obligations.KeyWait := by
  unfold Obligations.KeyWait
  refine ⟨fun x => decodeEncode (.getPressedValue x) rfl, fun s x => ⟨fun k hk hlow => ?_, fun hnone hpc => ?_⟩⟩
  · have hfirst : firstPressed s.keys = some k := firstPressed_eq_some_iff.mpr ⟨hk, hlow⟩
    exact writesReg_of_setReg (exec_getPressedValue_some x hfirst)
  · have hfirst : firstPressed s.keys = none := firstPressed_eq_none_iff.mpr hnone
    have hback : ((s.pc - 2).toNat : Int) = s.pc.toNat - 2 := by
      rw [BitVec.toNat_sub_of_le hpc]
      exact Int.ofNat_sub hpc
    rw [Completes, exec_getPressedValue_none x hfirst]
    exact s.complete_setPc_word s hback

/-! #### The timers -/

theorem timerByte_ok {b : Byte} {value : Int} (h : value = b.toNat) : timerByte value = .ok b := by
  have hb := b.isLt
  rw [timerByte, if_neg (by omega), h, ofInt_toNat_byte]

theorem timerByte_error {value : Int} (h : value < 0 ∨ 255 < value) : timerByte value = .error (.timerValue value) :=
  if_pos h

/-- A timer write checks that `V[x]` is a byte, then sets its timer to it (R175, R176). -/
theorem exec_delayTimerFromReg (x : RegIdx) (s : State) :
    exec (.delayTimerFromReg x) s = s.complete (timerByte (s.reg x) >>= fun b => .ok { s with dt := b }) := rfl

theorem exec_soundTimerFromReg (x : RegIdx) (s : State) :
    exec (.soundTimerFromReg x) s = s.complete (timerByte (s.reg x) >>= fun b => .ok { s with st := b }) := rfl

/-- Settles O36: one register write, of the delay timer's byte zero-extended. -/
theorem delayTimerRead : Obligations.DelayTimerRead := by
  unfold Obligations.DelayTimerRead
  exact ⟨fun x => decodeEncode (.regFromDelayTimer x) rfl, fun _ _ => writesReg_of_setReg rfl⟩

/-- Settles O37: the check lets through exactly the bytes, and a timer holds every byte. -/
theorem timerWrites : Obligations.TimerWrites := by
  unfold Obligations.TimerWrites
  refine ⟨fun x => decodeEncode (.delayTimerFromReg x) rfl, fun x => decodeEncode (.soundTimerFromReg x) rfl,
    fun s x => ⟨fun b hb => ⟨?_, ?_⟩, fun h => ⟨?_, ?_⟩⟩⟩
  · exact exec_of_ok_bind (exec_delayTimerFromReg x s) (timerByte_ok hb)
  · exact exec_of_ok_bind (exec_soundTimerFromReg x s) (timerByte_ok hb)
  · exact faults_of_error_bind (exec_delayTimerFromReg x s) (timerByte_error h)
  · exact faults_of_error_bind (exec_soundTimerFromReg x s) (timerByte_error h)

end Sys2Proof.Machine

/-! ### The state after a fault, and the host's moves (60_exceptions R203, R209, R212) -/

namespace Sys2Proof.Machine

open Sys2Proof.Claims

/-- A step that faults once the fetch has succeeded ends in the entered state with a record: an illegal word raises
`DECODE` there, and an instruction's fault is precise (R203). -/
theorem eq_entered_of_faults_after_fetch {s t : State} (hrun : s.halted = none) (hpc : s.pc.toNat + 1 ≤ 4095)
    (h : step s = .next t) (hfault : t.halted ≠ none) :
    ∃ record : FaultRecord, t = { entered s with halted := some record } := by
  rw [step_eq_execWord hrun hpc] at h
  cases hop : decodeWord (s.mem.word s.pc.toNat) with
  | none =>
    rw [execWord_illegal hop] at h
    exact ⟨_, (Host.Outcome.next.inj h).symm⟩
  | some i =>
    rw [execWord_legal hop] at h
    have hchanged : t.halted ≠ (entered s).halted := fun e => hfault (e.trans hrun)
    obtain ⟨_, -, -, -, ht⟩ := faultsArePrecise i (entered s) t h hchanged
    exact ⟨_, ht⟩

/-- Settles O47: past the fetch the state is the entered one with a record, and a failed fetch leaves `pc` where it was
(`stepFaultsBeforeExecute`); the fields the statement compares are those of `entered s`. -/
theorem faultedStepState : Obligations.FaultedStepState := by
  unfold Obligations.FaultedStepState
  intro s t hrun h hfault
  by_cases hpc : s.pc.toNat + 1 ≤ 4095
  · obtain ⟨record, rfl⟩ := eq_entered_of_faults_after_fetch hrun hpc h hfault
    exact ⟨(if_pos hpc).symm, rfl, rfl, rfl, rfl, rfl, rfl, rfl, rfl, rfl, rfl⟩
  · have hbounds := (stepFaultsBeforeExecute s hrun).2 (by omega)
    obtain rfl := Host.Outcome.next.inj (hbounds.symm.trans h)
    exact ⟨(if_neg hpc).symm, rfl, rfl, rfl, rfl, rfl, rfl, rfl, rfl, rfl, rfl⟩

/-- The moves fold over the pair of timers, so a list in two parts acts as its first part, then the second. -/
theorem State.hostMoves_append (s : State) (earlier later : List HostMove) :
    s.hostMoves (earlier ++ later) = (s.hostMoves earlier).hostMoves later := by
  simp only [State.hostMoves, List.foldl_append]

/-- Settles O60: one move sets its timer by `HostMove.onTimers`, and a list splits anywhere (`State.hostMoves_append`). -/
theorem hostMovesAct : Obligations.HostMovesAct := by
  unfold Obligations.HostMovesAct
  intro s
  exact ⟨fun _ => ⟨rfl, rfl⟩, rfl, fun m later => s.hostMoves_append [m] later, s.hostMoves_append⟩

end Sys2Proof.Machine

/-! ### The ROM load (70_reset R232, 20_memory R67) -/

namespace Sys2Proof.Machine

/-- A byte loaded at 0x200 to 0xFFF before the first cycle is written, and nothing else changes. -/
theorem State.loadByte_write {s : State} {addr : Nat} (b : Byte) (hcycles : s.cycles = 0) (hlo : 0x200 ≤ addr)
    (hhi : addr ≤ 0xFFF) : s.loadByte addr b = { s with mem := s.mem.write addr b } :=
  if_pos ⟨hcycles, hlo, Nat.lt_succ_of_le hhi⟩

/-- Once a cycle has begun, below 0x200 and beyond memory a load has no effect. -/
theorem State.loadByte_ignored {s : State} {addr : Nat} (b : Byte)
    (h : s.cycles ≠ 0 ∨ addr < 0x200 ∨ 0xFFF < addr) : s.loadByte addr b = s :=
  if_neg (by rw [Config.programStart, Config.memSize]; omega)

/-- A load that fits in memory from 0x200 on, before the first cycle, writes its bytes one after another. -/
theorem State.loadFrom_write (bytes : List Byte) {s : State} {addr : Nat} (hcycles : s.cycles = 0)
    (hlo : 0x200 ≤ addr) (hhi : addr + bytes.length ≤ 4096) :
    s.loadFrom addr bytes = { s with mem := s.mem.writeFrom addr bytes } := by
  induction bytes generalizing s addr with
  | nil => rfl
  | cons b later ih =>
    rw [List.length_cons] at hhi
    rw [State.loadFrom, State.loadByte_write b hcycles hlo (by omega)]
    exact ih hcycles (by omega) (by omega)

/-- Once a cycle has begun a load of any length has no effect. -/
theorem State.loadFrom_ignored (bytes : List Byte) {s : State} (addr : Nat) (hcycles : s.cycles ≠ 0) :
    s.loadFrom addr bytes = s := by
  induction bytes generalizing addr with
  | nil => rfl
  | cons b later ih => rw [State.loadFrom, State.loadByte_ignored b (.inl hcycles), ih]

theorem State.loadRom_refused {s : State} {bytes : List Byte} (h : 3584 < bytes.length) :
    s.loadRom bytes = .refused (.romTooLong bytes.length) := if_pos h

theorem State.loadRom_fits {s : State} {bytes : List Byte} (h : bytes.length ≤ 3584) :
    s.loadRom bytes = .next (s.loadFrom 0x200 bytes) := if_neg h.not_gt

/-- Bytes written one after another inside memory leave every byte before the first one and after the last one. -/
theorem Memory.read_writeFrom_outside (bytes : List Byte) {m : Memory} {addr x : Nat} (hm : m.wf = true)
    (hfits : addr + bytes.length ≤ 4096) (hx : x < addr ∨ addr + bytes.length ≤ x) :
    (m.writeFrom addr bytes).read x = m.read x := by
  induction bytes generalizing m addr with
  | nil => rfl
  | cons b later ih =>
    rw [List.length_cons] at hfits hx
    rw [Memory.writeFrom, ih (Memory.wf_write b hm (by omega)) (by omega) (by omega), Memory.read_write hm,
      if_neg (by omega)]

/-- Byte `j` of those written is read at `addr + j`: no later one is written there. -/
theorem Memory.read_writeFrom (bytes : List Byte) {m : Memory} {addr : Nat} (hm : m.wf = true)
    (hfits : addr + bytes.length ≤ 4096) (j : Nat) (hj : j < bytes.length) :
    (m.writeFrom addr bytes).read (addr + j) = bytes[j] := by
  induction bytes generalizing m addr j with
  | nil => exact absurd hj (Nat.not_lt_zero j)
  | cons b later ih =>
    rw [List.length_cons] at hfits
    have hwrite : (m.write addr b).wf = true := Memory.wf_write b hm (by omega)
    rw [Memory.writeFrom]
    cases j with
    | zero =>
      rw [Memory.read_writeFrom_outside later hwrite (by omega) (by omega), Memory.read_write hm]
      exact if_pos rfl
    | succ j =>
      rw [← Nat.add_assoc, Nat.add_right_comm]
      exact ih hwrite (by omega) j (Nat.lt_of_succ_lt_succ hj)

/-- Settles O56: a ROM that fits is its bytes written from 0x200 on, which end inside memory. -/
theorem romLoad : Obligations.RomLoad := by
  unfold Obligations.RomLoad
  refine ⟨fun s addr b => ⟨State.loadByte_write b, State.loadByte_ignored b⟩,
    fun s bytes => ⟨State.loadRom_refused, fun h hcycles => ?_, fun h hcycles hm => ?_⟩⟩
  · rw [State.loadRom_fits h, State.loadFrom_ignored bytes 0x200 hcycles]
  · have hfits : 0x200 + bytes.length ≤ 4096 := by omega
    refine ⟨s.mem.writeFrom 0x200 bytes, ?_, Memory.wf_writeFrom bytes hm hfits,
      Memory.read_writeFrom bytes hm hfits, fun _ => Memory.read_writeFrom_outside bytes hm hfits⟩
    rw [State.loadRom_fits h, State.loadFrom_write bytes hcycles le_rfl hfits]

end Sys2Proof.Machine

/-! ### The step of a running, a finished and a halted block (70_reset R235, R236, R239) -/

namespace Sys2Proof.Machine

open Sys2Proof.Claims

/-- The bytes of a word decode to an instruction, with none left over, exactly when the word does. -/
theorem decode_pair_eq_ok {first second : Byte} {i : Instr} :
    decode [first, second] = .ok (i, []) ↔ decodeWord (wordOfBytes first second) = some i := by
  rw [decode]
  cases decodeWord (wordOfBytes first second) <;> simp

/-- Settles O43: the two bytes are those of the word that the step runs (`step_eq_execWord`). -/
theorem stepRunsDecoded : Obligations.StepRunsDecoded := by
  unfold Obligations.StepRunsDecoded
  intro s i hrun hpc hdecode
  exact (step_eq_execWord hrun hpc).trans (execWord_legal (decode_pair_eq_ok.mp hdecode) _)

/-- A finished run fetches `Jump a` at `a`, so its step ends in the entered state with `pc` back at `a`. -/
theorem State.FinishedAt.step_eq {s : State} {a : Nat} (h : s.FinishedAt a) :
    step s = .next { entered s with pc := s.pc } := by
  obtain ⟨hrun, hbound, rfl, hword⟩ := h
  obtain ⟨hdecode, hjump⟩ := jumpSetsPc
  have hop : decodeWord (s.mem.word s.pc.toNat) = some (.jump s.pc.toNat) := by
    rw [hword]
    exact hdecode s.pc.toNat (by omega)
  exact ((step_eq_execWord hrun hbound).trans (execWord_legal hop _)).trans (hjump (entered s) s.pc)

/-- Settles O58: the fields in which `entered s` with the old `pc` differs from `s` are those the statement names, and
none of them is read by `FinishedAt`. -/
theorem finishedIsFixed : Obligations.FinishedIsFixed := by
  unfold Obligations.FinishedIsFixed
  intro s a h
  refine ⟨{ entered s with pc := s.pc }, h.step_eq, ⟨h.running, h.bound, h.pc, h.word⟩, ?_⟩
  rw [← h.word, ← h.pc]
  rfl

theorem step_halted {s : State} {r : FaultRecord} (h : s.halted = some r) : step s = .fault (.halted r) := by
  simp only [step, h]

/-- Settles O45: `step_halted`, and the step input keeps a state that has no step. -/
theorem haltedHasNoStep : Obligations.HaltedHasNoStep := by
  unfold Obligations.HaltedHasNoStep
  intro s r h
  exact ⟨step_halted h, by rw [State.pulse, step_halted h]⟩

end Sys2Proof.Machine

/-! ### The timer ticks (60_exceptions R212) -/

namespace Sys2Proof.Machine

/-- Truncated subtraction stops at 0, as a tick does. -/
theorem tickTimer_toNat (t : Byte) : (tickTimer t).toNat = t.toNat - 1 := by
  unfold tickTimer
  split
  · next h => rw [h]; rfl
  · next h => bv_omega

theorem State.hostMoves_tick (s : State) :
    s.hostMoves [.tick] = { s with dt := tickTimer s.dt, st := tickTimer s.st } := rfl

/-- Settles O38, by induction on the number of ticks: the first tick, then the others from the state after it. -/
theorem ticksCountDown : Obligations.TicksCountDown := by
  unfold Obligations.TicksCountDown
  intro s n
  induction n generalizing s with
  | zero => exact ⟨s.dt, s.st, rfl, rfl, rfl⟩
  | succ n ih =>
    obtain ⟨d, e, hmoves, hd, he⟩ := ih (s.hostMoves [.tick])
    rw [State.hostMoves_tick, tickTimer_toNat, Nat.sub_sub, Nat.add_comm 1] at hd he
    exact ⟨d, e, (s.hostMoves_append [.tick] _).trans hmoves, hd, he⟩

end Sys2Proof.Machine

/-! ### The canonical form of memory (log 13) -/

namespace Sys2Proof.Machine

/-- A listed byte differs from what an unlisted address reads as, so the first one cannot be missing from a memory that
reads alike. -/
theorem Memory.read_ne_of_head_below {cell : Host.Cell} {rest n : Memory} {lo : Nat}
    (hm : Memory.wfFrom lo (cell :: rest) = true) (hn : Memory.wfFrom (cell.1 + 1) n = true) :
    Memory.read (cell :: rest) cell.1 ≠ n.read cell.1 := by
  obtain ⟨-, -, hlisted, -⟩ := (Memory.wfFrom_cons lo cell rest).mp hm
  rw [Memory.read_cons, if_pos rfl, Memory.read_below hn (Nat.lt_succ_self _)]
  exact hlisted

/-- Of two canonical memories that read alike, neither lists its first address before the other. -/
theorem Memory.head_le_of_read_eq {c d : Host.Cell} {m n : Memory} {lo : Nat}
    (hm : Memory.wfFrom lo (c :: m) = true) (hn : Memory.wfFrom lo (d :: n) = true)
    (h : ∀ a ≤ 4095, Memory.read (c :: m) a = Memory.read (d :: n) a) : d.1 ≤ c.1 := by
  obtain ⟨-, hc, -, -⟩ := (Memory.wfFrom_cons lo c m).mp hm
  obtain ⟨-, hd⟩ := (Memory.wfFrom_cons lo d n).mp hn
  by_contra hlt
  exact Memory.read_ne_of_head_below hm ((Memory.wfFrom_cons _ d n).mpr ⟨by omega, hd⟩) (h c.1 (by omega))

/-- Canonical lists with one first address that read alike have tails that read alike: up to that address both tails
read as unlisted. -/
theorem Memory.read_tail_eq {c d : Host.Cell} {m n : Memory} {a : Nat} (haddr : c.1 = d.1)
    (hm : Memory.wfFrom (c.1 + 1) m = true) (hn : Memory.wfFrom (d.1 + 1) n = true)
    (h : Memory.read (c :: m) a = Memory.read (d :: n) a) : m.read a = n.read a := by
  by_cases ha : c.1 = a
  · rw [Memory.read_below hm (by omega), Memory.read_below hn (by omega)]
  · rwa [Memory.read_cons, Memory.read_cons, if_neg ha, if_neg (haddr ▸ ha)] at h

/-- Two canonical lists that read alike are compared cell by cell from their lowest address. -/
theorem Memory.eq_of_read_eq {m n : Memory} {lo : Nat} (hm : Memory.wfFrom lo m = true)
    (hn : Memory.wfFrom lo n = true) (h : ∀ a ≤ 4095, m.read a = n.read a) : m = n := by
  induction m generalizing n lo with
  | nil =>
    cases n with
    | nil => rfl
    | cons d n =>
      obtain ⟨-, hd, -⟩ := (Memory.wfFrom_cons lo d n).mp hn
      exact absurd (h d.1 (by omega)).symm (Memory.read_ne_of_head_below hn rfl)
  | cons c m ih =>
    obtain ⟨-, hc, -, hm'⟩ := (Memory.wfFrom_cons lo c m).mp hm
    cases n with
    | nil => exact absurd (h c.1 (by omega)) (Memory.read_ne_of_head_below hm rfl)
    | cons d n =>
      obtain ⟨-, -, -, hn'⟩ := (Memory.wfFrom_cons lo d n).mp hn
      have haddr : c.1 = d.1 :=
        le_antisymm (Memory.head_le_of_read_eq hn hm fun a ha => (h a ha).symm) (Memory.head_le_of_read_eq hm hn h)
      have hbyte : c.2 = d.2 := by
        have hread := h c.1 (by omega)
        rwa [Memory.read_cons, Memory.read_cons, if_pos rfl, if_pos haddr.symm] at hread
      have htail : m = n :=
        ih hm' (haddr ▸ hn') fun a ha => Memory.read_tail_eq haddr hm' hn' (h a ha)
      rw [Prod.ext haddr hbyte, htail]

/-- Settles O41: `Memory.eq_of_read_eq` from address 0. -/
theorem canonicalMemory : Obligations.CanonicalMemory := by
  unfold Obligations.CanonicalMemory
  exact fun _ _ hm hn h => Memory.eq_of_read_eq hm hn h

end Sys2Proof.Machine

/-! ### A fresh state for any parameters (00_scope R7, 10_state R38) -/

namespace Sys2Proof.Machine

section

variable (font : Vector Byte 80) (lo hi : Int) (fb : Framebuffer)

theorem State.createWith_mem :
    (State.createWith font lo hi fb).mem = State.reset.mem.writeFrom 0x050 font.toList := rfl

theorem State.createWith_mem_wf : (State.createWith font lo hi fb).mem.wf = true :=
  Memory.wf_writeFrom font.toList State.reset_mem_wf (by simp [Config.fontBase])

/-- Byte `j` of the Font Table is at `0x050 + j`. -/
theorem State.createWith_read_font (j : Nat) (hj : j < 80) :
    (State.createWith font lo hi fb).mem.read (0x050 + j) = font[j] := by
  rw [State.createWith_mem, Memory.read_writeFrom font.toList State.reset_mem_wf (by simp) j (by simpa using hj),
    Vector.getElem_toList]

theorem State.createWith_read_outside {a : Nat} (ha : a < 0x050 ∨ 0x09F < a) :
    (State.createWith font lo hi fb).mem.read a = 0 := by
  rw [State.createWith_mem, Memory.read_writeFrom_outside font.toList State.reset_mem_wf (by simp)
    (by rw [Vector.length_toList]; omega)]
  exact Params.resetByte_outside ha

end

/-- Inside the Font Table a byte is the default font's at creation (20_memory R53). -/
theorem Params.resetByte_font {font : Vector Byte 80} (hfont : font.toList = Params.font) (j : Nat) (hj : j < 80) :
    Params.resetByte (0x050 + j) = font[j] := by
  rw [Params.resetByte, if_pos (Nat.le_add_right _ j), Nat.add_sub_cancel_left, ← hfont,
    List.getD_eq_getElem _ _ (by simpa using hj), Vector.getElem_toList]

/-- The default font is what memory holds at creation, so it leaves no byte to list. -/
theorem State.createWith_mem_default {font : Vector Byte 80} (hfont : font.toList = Params.font) (lo hi : Int)
    (fb : Framebuffer) : (State.createWith font lo hi fb).mem = State.reset.mem := by
  refine canonicalMemory _ _ (State.createWith_mem_wf font lo hi fb) State.reset_mem_wf fun a _ => ?_
  change _ = Params.resetByte a
  by_cases ha : a < 0x050 ∨ 0x09F < a
  · rw [State.createWith_read_outside font lo hi fb ha, Params.resetByte_outside ha]
  · obtain ⟨j, rfl⟩ := Nat.exists_eq_add_of_le (show 0x050 ≤ a by omega)
    rw [State.createWith_read_font font lo hi fb j (by omega), Params.resetByte_font hfont j (by omega)]

/-- Settles O55: memory is the font's 80 bytes written from 0x050 on, and no other field but the parameters differs from
reset; the default font leaves memory as at reset (`State.createWith_mem_default`). -/
theorem freshStates : Obligations.FreshStates := by
  unfold Obligations.FreshStates
  intro font lo hi fb
  refine ⟨fun d r h => ?_, fun _ => State.createWith_read_outside font lo hi fb,
    State.createWith_mem_wf font lo hi fb, rfl, fun hfont => ?_⟩
  · rw [Nat.add_assoc]
    exact State.createWith_read_font font lo hi fb (5 * d + r) (by omega)
  · exact congrArg (fun m => { State.reset with mem := m })
      (State.createWith_mem_default hfont Params.regMin Params.regMax Params.fbInit)

end Sys2Proof.Machine
